-- ==== Sys2Proof/Word.lean ====
section
/-! DEFINITION. The word types LZWC moves: symbols, command words, output words, register values, wire bytes,
and the symbol sequences its dictionaries hold. -/

namespace Sys2Proof

/-- A symbol: one byte, every value legal (00_scope.md R10). -/
abbrev Symbol := BitVec 8

/-- A symbol sequence (00_scope.md R13). -/
abbrev SymSeq := List Symbol

/-- A 16-bit command word (30_encoding.md R65). -/
abbrev CmdWord := BitVec 16

/-- A 16-bit output word (30_encoding.md R70). -/
abbrev OutWord := BitVec 16

/-- A 32-bit value of the register read port (20_memory.md R48). -/
abbrev RegWord := BitVec 32

/-- A byte of the wire format (30_encoding.md R75). -/
abbrev WireByte := BitVec 8

end Sys2Proof
end

