-- ==== Sys2Proof/Syntax.lean ====
section
/-! DEFINITION. The two units and the six commands of spec/opcode_table.json, one constructor a row. -/

namespace Sys2Proof

/-- The two units of LZWC (00_scope.md R2). -/
inductive UnitId where
  | enc
  | dec
  deriving DecidableEq, Repr

/-- The six commands (30_encoding.md R66). The operands carry their width, so every term is well formed:
SYM is any 8-bit value, CODE any 12-bit value (30_encoding.md R67, R68). -/
inductive Instr where
  /-- ENC_INIT, format CMD-N (40_encoder.md R80). -/
  | encInit
  /-- ENC_SYM with its symbol, format CMD-S (40_encoder.md R81). -/
  | encSym (sym : BitVec 8)
  /-- ENC_END, format CMD-N (40_encoder.md R82). -/
  | encEnd
  /-- DEC_INIT, format CMD-N (41_decoder.md R88). -/
  | decInit
  /-- DEC_CODE with its codeword, format CMD-C (41_decoder.md R89). -/
  | decCode (code : BitVec 12)
  /-- DEC_EOS, format CMD-N (41_decoder.md R90). -/
  | decEos
  deriving DecidableEq, Repr

/-- The unit whose command input a command belongs to (opcode_table.json, "unit"). -/
def Instr.unit : Instr → UnitId
  | .encInit => .enc
  | .encSym _ => .enc
  | .encEnd => .enc
  | .decInit => .dec
  | .decCode _ => .dec
  | .decEos => .dec

/-- INIT, the one command a unit in ERROR acts on (60_exceptions.md R104 `isInit`, R107). -/
def Instr.isInit : Instr → Bool
  | .encInit => true
  | .encSym _ => false
  | .encEnd => false
  | .decInit => true
  | .decCode _ => false
  | .decEos => false

end Sys2Proof
end

