-- ==== Sys2Proof/WellFormed.lean ====
section
/-! DEFINITION. Which words are command words of a unit, read from the masks and patterns of
spec/opcode_table.json (30_encoding.md R66, R68), and the operand ranges of the command text (R78).
A term of `Instr` needs no check: its operands carry their width. -/

namespace Sys2Proof

/-- One row of spec/opcode_table.json: a word is of the row when its masked bits are the row's pattern. -/
structure OpcodeRow where
  unit : UnitId
  pattern : BitVec 16
  mask : BitVec 16
  deriving DecidableEq, Repr

/-- The rows of spec/opcode_table.json, in its order. -/
def opcodeRows : List OpcodeRow :=
  [ ⟨.enc, 0x1000#16, 0xFFFF#16⟩,
    ⟨.enc, 0x2000#16, 0xFF00#16⟩,
    ⟨.enc, 0x3000#16, 0xFFFF#16⟩,
    ⟨.dec, 0x1000#16, 0xFFFF#16⟩,
    ⟨.dec, 0x4000#16, 0xF000#16⟩,
    ⟨.dec, 0x5000#16, 0xFFFF#16⟩ ]

/-- `Legal(U, cmd)` of 30_encoding.md R68: `cmd` is one of the words R66 lists for unit `u`. -/
def legal (u : UnitId) (cmd : CmdWord) : Bool :=
  opcodeRows.any fun row => row.unit == u && (cmd &&& row.mask) == row.pattern

/-- The text operand of ENC_SYM names an 8-bit symbol (30_encoding.md R78). -/
def symNumberOk (n : Nat) : Bool := n < 256

/-- The text operand of DEC_CODE is a number `0 .. 4095` (30_encoding.md R78). -/
def codeNumberOk (n : Nat) : Bool := n < 4096

/-- A `.word` operand is a 16-bit number (30_encoding.md R78). -/
def wordNumberOk (n : Nat) : Bool := n < 65536

end Sys2Proof
end

