-- ==== Sys2Proof/Decode.lean ====
section
/-! DEFINITION. The fields of a command word, the decoder of each unit, total on every word and refusing by
name, and the encoder, both from 30_encoding.md R65 to R68. -/

namespace Sys2Proof

/-- `OP = cmd[15:12]` (30_encoding.md R65). -/
def opField (cmd : CmdWord) : BitVec 4 := cmd.extractLsb' 12 4

/-- `ARG = cmd[11:0]` (30_encoding.md R65); CODE of format CMD-C (R67). -/
def argField (cmd : CmdWord) : BitVec 12 := cmd.extractLsb' 0 12

/-- `SYM = cmd[7:0]` of format CMD-S (30_encoding.md R67). -/
def symField (cmd : CmdWord) : BitVec 8 := cmd.extractLsb' 0 8

/-- `cmd[11:8]`, which must be zero in format CMD-S (30_encoding.md R65). -/
def symReserved (cmd : CmdWord) : BitVec 4 := cmd.extractLsb' 8 4

/-- Why a word is not legal on a unit: the four causes 30_encoding.md R68 lists. The machine records none of
them (60_exceptions.md R96); they name what the decoder refused. -/
inductive Illegal where
  /-- Opcode `0x0` or `0x6 .. 0xF`. -/
  | reservedOpcode
  /-- An opcode of the other unit. -/
  | otherUnitsOpcode
  /-- A nonzero ARG on ENC_INIT, ENC_END, DEC_INIT or DEC_EOS. -/
  | nonzeroArg
  /-- A nonzero `cmd[11:8]` on ENC_SYM. -/
  | nonzeroReserved
  deriving DecidableEq, Repr

/-- A command of format CMD-N: its ARG must be zero (30_encoding.md R65). -/
def decodeNoOperand (i : Instr) (cmd : CmdWord) : Except Illegal Instr :=
  if argField cmd = 0#12 then .ok i else .error .nonzeroArg

/-- ENC_SYM, format CMD-S: `cmd[11:8]` must be zero (30_encoding.md R65). -/
def decodeEncSym (cmd : CmdWord) : Except Illegal Instr :=
  if symReserved cmd = 0#4 then .ok (.encSym (symField cmd)) else .error .nonzeroReserved

/-- The encoder input's column of the opcode map (30_encoding.md R66). -/
def decodeEnc (cmd : CmdWord) : Except Illegal Instr :=
  match (opField cmd).toNat with
  | 1 => decodeNoOperand .encInit cmd
  | 2 => decodeEncSym cmd
  | 3 => decodeNoOperand .encEnd cmd
  | 4 => .error .otherUnitsOpcode
  | 5 => .error .otherUnitsOpcode
  | _ => .error .reservedOpcode

/-- The decoder input's column of the opcode map (30_encoding.md R66). -/
def decodeDec (cmd : CmdWord) : Except Illegal Instr :=
  match (opField cmd).toNat with
  | 1 => decodeNoOperand .decInit cmd
  | 2 => .error .otherUnitsOpcode
  | 3 => .error .otherUnitsOpcode
  | 4 => .ok (.decCode (argField cmd))
  | 5 => decodeNoOperand .decEos cmd
  | _ => .error .reservedOpcode

/-- The command a unit reads from a 16-bit word on its input (30_encoding.md R65, R69: one length, no modes). -/
def decode (u : UnitId) (cmd : CmdWord) : Except Illegal Instr :=
  match u with
  | .enc => decodeEnc cmd
  | .dec => decodeDec cmd

/-- The word of a command (30_encoding.md R66; R80 to R82, R88 to R90 "Encoding"). -/
def encode : Instr → CmdWord
  | .encInit => 0x1000#16
  | .encSym sym => 0x20#8 ++ sym
  | .encEnd => 0x3000#16
  | .decInit => 0x1000#16
  | .decCode code => 0x4#4 ++ code
  | .decEos => 0x5000#16

/-- The unit a word of the opcode table is given to when only the word is known: the unit that has its opcode.
`0x1` is an opcode of both units; the encoder is taken. DESIGN CHOICE, safe (log 6). -/
def homeUnit (cmd : CmdWord) : UnitId :=
  match (opField cmd).toNat with
  | 4 => .dec
  | 5 => .dec
  | _ => .enc

/-- The 16-bit command word of `nbits` bits of a table number, the bits above `nbits` zero. -/
def tableWord (nbits w : Nat) : CmdWord := BitVec.ofNat 16 (w % 2 ^ nbits)

/-- What the decoder reads from a word numbered as spec/opcode_table.json numbers it. A command is exactly one
16-bit word (30_encoding.md R69), so a longer one is refused. -/
def decodeTableWord (nbits w : Nat) : Option Instr :=
  if 16 < nbits then none
  else
    match decode (homeUnit (tableWord nbits w)) (tableWord nbits w) with
    | .ok i => some i
    | .error _ => none

end Sys2Proof
end

