-- ==== Sys2Proof/Config.lean ====
section
/-! DEFINITION. The implementation parameters (00_scope.md R7 to R9): the codeword width W and the constants
named from it. Nothing here is left free: 00_scope.md R11 says no other quantity is the implementation's. -/

namespace Sys2Proof

/-- The codeword width W: 12 in this hardware (00_scope.md R7); a model may take 9 to 12 (R8; log 2). -/
inductive Width where
  | nine
  | ten
  | eleven
  | twelve
  deriving DecidableEq, Repr

/-- W as a number (00_scope.md R9). -/
def Width.bits : Width → Nat
  | .nine => 9
  | .ten => 10
  | .eleven => 11
  | .twelve => 12

/-- NCODES = 2^W, the number of codes (00_scope.md R9). -/
def Width.ncodes (W : Width) : Nat := 2 ^ W.bits

/-- MAX_CODE = 2^W - 1 (00_scope.md R9). -/
def Width.maxCode (W : Width) : Nat := W.ncodes - 1

/-- NSYM = 256 (00_scope.md R9). -/
abbrev nsym : Nat := 256

/-- SENTINEL = 256, the end-of-stream code (00_scope.md R9; 30_encoding.md R63). -/
abbrev sentinel : Nat := 256

/-- FIRST_LEARNED = 257, the first code a learned sequence takes (00_scope.md R9). -/
abbrev firstLearned : Nat := 257

/-- MAX_SEQ = 2^W - NSYM, the longest sequence an entry can hold (00_scope.md R9; 20_memory.md R40). -/
def Width.maxSeq (W : Width) : Nat := W.ncodes - nsym

end Sys2Proof
end

