-- ==== Sys2Proof/Machine/State.lean ====
section
/-! DEFINITION. The state of LZWC (10_state.md R16 to R24, R36), the host's actions still to come, the faults
and refusals, and the state after reset (10_state.md R38). -/

namespace Sys2Proof.Machine

/-- Where a unit is in a stream (10_state.md R17). -/
inductive UnitState where
  | idle
  | active
  | done
  | error
  deriving DecidableEq, Repr

/-- The status codes of 60_exceptions.md R95; codes 8 to 15 are never produced, so no term stands for them. -/
inductive Status where
  | ok
  | illegalCmd
  | sequence
  | corruptHigh
  | corruptFirst
  | corruptTruncated
  | corruptRange
  | aborted
  deriving DecidableEq, Repr

/-- A dictionary memory: the entries that are not `⊥`, as (code, sequence) pairs, codes strictly rising
(20_memory.md R40, R45; the representation is open, R44, R47; log 19). An unlisted code reads as `⊥`. -/
abbrev Memory := List (Nat × SymSeq)

/-- The canonical form of a dictionary memory: codes strictly rising. No entry can equal what an unlisted code
reads as, since a listed entry is a sequence and `⊥` is none. -/
abbrev Memory.wf (m : Memory) : Prop := m.Pairwise fun a b => a.1 < b.1

/-- The fields both unit records have (10_state.md R16 and R21). -/
structure UnitCore where
  state : UnitState
  err : Status
  out : List OutWord
  deriving DecidableEq, Repr

/-- The encoder unit's record ENC (10_state.md R16). -/
structure EncUnit extends UnitCore where
  dict : Memory
  nextCode : Nat
  w : Option Nat
  deriving DecidableEq, Repr

/-- The decoder unit's record DEC (10_state.md R21). -/
structure DecUnit extends UnitCore where
  table : Memory
  highestCode : Nat
  current : Option SymSeq
  deriving DecidableEq, Repr

/-- What the host can do that changes the state (20_memory.md R49, R55; 70_reset_and_hazards.md R120; log 1). -/
inductive HostAction where
  /-- Put one word on a unit's command input, where the unit acts on it (30_encoding.md R65). -/
  | send (u : UnitId) (cmd : CmdWord)
  /-- Take the word at the front of a unit's output queue (20_memory.md R55). -/
  | take (u : UnitId)
  /-- Hardware reset (70_reset_and_hazards.md R120). -/
  | hardReset
  deriving DecidableEq, Repr

/-- The whole machine: PARAM's width (10_state.md R36), the two units, and, as the model's own field, what the
host does next, oldest first (log 1). -/
structure State where
  param : Width
  enc : EncUnit
  dec : DecUnit
  host : List HostAction
  deriving DecidableEq, Repr

/-- Why a step stops with a fault. The hardware has none: 00_scope.md R15 gives every command a next state. Each
of these needs a unit record that breaks the invariants of 10_state.md R25 or R26, the cases
93_implementation_defined.md treats as `stuck` (U5, U6). All are safe (log 5). -/
inductive Fault where
  /-- ENC_SYM in ACTIVE: the pending match `ENC.w` names an entry that is `⊥`, so `dict[w] ++ [s]` does not exist
  (against 10_state.md R25 (7)). Safe. -/
  | dictEntryAbsent
  /-- DEC_CODE in ACTIVE: `TableRead(c)` of a code below `highestCode` is `⊥` (against 20_memory.md R46). Safe. -/
  | tableEntryAbsent
  /-- DEC_CODE in ACTIVE: the first symbol of an empty sequence is asked for (00_scope.md R13 defines `a[0]` for
  `0 < len(a)` only; against 10_state.md R26 (4), (6)). Safe. -/
  | emptySequence
  deriving DecidableEq, Repr

/-- Why a step is refused. No arm of `exec` uses it: every command has its meaning. -/
inductive Refusal where
  /-- An instruction without a meaning, by its mnemonic. Safe. -/
  | notModelled (mnemonic : String)
  deriving DecidableEq, Repr

/-- ENC after hardware reset (10_state.md R38). `dict` is unspecified there: every entry `⊥`. DESIGN CHOICE,
unsafe, unobservable (log 3). -/
def EncUnit.reset : EncUnit where
  state := .idle
  err := .ok
  out := []
  dict := []
  nextCode := 0
  w := none

/-- DEC after hardware reset (10_state.md R38). `table` is unspecified there: every entry `⊥`. DESIGN CHOICE,
unsafe, unobservable (log 3). -/
def DecUnit.reset : DecUnit where
  state := .idle
  err := .ok
  out := []
  table := []
  highestCode := 0
  current := none

/-- The machine right after hardware reset (10_state.md R38): W = 12, both units reset, the host yet to act
(log 7). -/
def State.reset : State where
  param := .twelve
  enc := EncUnit.reset
  dec := DecUnit.reset
  host := []

end Sys2Proof.Machine
end

