-- ==== Sys2Proof/Machine/Operands.lean ====
section
/-! DEFINITION. The operands of the commands (30_encoding.md R67), the codeword classes (R63, R64) and the
words a unit emits (R70, R71). -/

namespace Sys2Proof.Machine

/-- ENC_SYM's symbol, used unextended (30_encoding.md R67). -/
def symOperand (sym : BitVec 8) : Symbol := sym

/-- The code of the one-symbol sequence `[s]` (00_scope.md R3; 40_encoder.md R81). -/
def symCode (s : Symbol) : Nat := s.toNat

/-- DEC_CODE's codeword, zero-extended (30_encoding.md R67). -/
def codeOperand (code : BitVec 12) : Nat := code.toNat

/-- The static classes of a codeword (30_encoding.md R63). -/
inductive StaticClass where
  | literal
  | sentinel
  | learned
  deriving DecidableEq, Repr

/-- The static class of a codeword, by value alone (30_encoding.md R63). A value of `2^W` or more, which DEC_CODE can
carry when `W < 12` (R67), has no class in R63's table; here it is called `learned` (DESIGN CHOICE, safe; log 20). No
command reads the class: DEC_CODE raises CORRUPT_RANGE for such a value (41_decoder.md R89). -/
def staticClass (c : Nat) : StaticClass :=
  if c < nsym then .literal else if c = Sys2Proof.sentinel then .sentinel else .learned

/-- The decoder's classes of a non-sentinel codeword after the first (30_encoding.md R64). -/
inductive DynClass where
  | known
  | self
  | corrupt
  deriving DecidableEq, Repr

/-- The class of `c` against `DEC.highestCode` (30_encoding.md R64). -/
def dynClass (hc c : Nat) : DynClass :=
  if c < hc then .known else if c = hc then .self else .corrupt

/-- The 4-bit value of a status code (60_exceptions.md R95). -/
def Status.bits : Status → BitVec 4
  | .ok => 0#4
  | .illegalCmd => 1#4
  | .sequence => 2#4
  | .corruptHigh => 3#4
  | .corruptFirst => 4#4
  | .corruptTruncated => 5#4
  | .corruptRange => 6#4
  | .aborted => 7#4

/-- The tag of an output word, `o[15:12]` (30_encoding.md R70). -/
def outTag (o : OutWord) : BitVec 4 := o.extractLsb' 12 4

/-- The payload of an output word, `o[11:0]` (30_encoding.md R70). -/
def outPayload (o : OutWord) : BitVec 12 := o.extractLsb' 0 12

/-- The tag of a DATA word (30_encoding.md R70). -/
def tagData : BitVec 4 := 0x0#4

/-- The tag of a CLOSE word (30_encoding.md R70). -/
def tagClose : BitVec 4 := 0xF#4

/-- `CODEWORD(c)` (30_encoding.md R71). -/
def codeWord (c : Nat) : OutWord := tagData ++ BitVec.ofNat 12 c

/-- `SYMWORD(s)` (30_encoding.md R71). -/
def symWord (s : Symbol) : OutWord := tagData ++ (0x0#4 ++ s)

/-- `CLOSEWORD(st)` (30_encoding.md R71). -/
def closeWord (st : Status) : OutWord := tagClose ++ (0x00#8 ++ st.bits)

end Sys2Proof.Machine
end

