-- ==== Sys2Proof/Machine/Flags.lean ====
section
/-! DEFINITION. The two flags, the STATUS and PARAM registers (10_state.md R30 to R36) and the register read
port (20_memory.md R48). They are views of the state: a read is a function of it and changes nothing (log 10). -/

namespace Sys2Proof.Machine

/-- The STATE field's encoding (10_state.md R17); values 4 to 7 are never produced. -/
def UnitState.bits : UnitState → BitVec 3
  | .idle => 0#3
  | .active => 1#3
  | .done => 2#3
  | .error => 3#3

/-- PEND of ENC_STATUS: a match is pending (10_state.md R31). -/
def EncUnit.pend (e : EncUnit) : Bool := e.w.isSome

/-- PEND of DEC_STATUS: a sequence has been decoded in this stream (10_state.md R31). -/
def DecUnit.pend (d : DecUnit) : Bool := d.current.isSome

/-- FULL: NEXT equals `2^W` (10_state.md R33). -/
def fullFlag (W : Width) (next : Nat) : Bool := next == W.ncodes

/-- The layout of a STATUS register (10_state.md R30): NEXT[28:16], FULL[8], ERR[7:4], PEND[3], STATE[2:0], every
other bit zero. NEXT is 13 bits wide (R34). -/
def statusWord (W : Width) (next : Nat) (err : Status) (pend : Bool) (state : UnitState) : RegWord :=
  0#3 ++ (BitVec.ofNat 13 next ++ (0#7 ++ (BitVec.ofBool (fullFlag W next) ++
    (err.bits ++ (BitVec.ofBool pend ++ state.bits)))))

/-- ENC_STATUS (10_state.md R30 to R34). -/
def State.encStatus (s : State) : RegWord :=
  statusWord s.param s.enc.nextCode s.enc.err s.enc.pend s.enc.state

/-- DEC_STATUS (10_state.md R30 to R34). -/
def State.decStatus (s : State) : RegWord :=
  statusWord s.param s.dec.highestCode s.dec.err s.dec.pend s.dec.state

/-- PARAM: bits 4:0 are W, bits 31:5 read zero (10_state.md R36). -/
def State.paramWord (s : State) : RegWord := 0#27 ++ BitVec.ofNat 5 s.param.bits

/-- The register read port: address 0 ENC_STATUS, 1 DEC_STATUS, 2 PARAM, every other address zero
(20_memory.md R48). It is read between two commands (R50). -/
def State.readPort (s : State) (addr : Nat) : RegWord :=
  match addr with
  | 0 => s.encStatus
  | 1 => s.decStatus
  | 2 => s.paramWord
  | _ => 0#32

end Sys2Proof.Machine
end

