-- ==== Sys2Proof/Machine/Ops.lean ====
section
/-! DEFINITION. The operations the meanings share: the dictionary memories (20_memory.md R41, R46), emitting
(00_scope.md R14), the error action (60_exceptions.md R105), INIT, the one return from an error (R108), the
dispatch ladder of a command (R104), hardware reset (70_reset_and_hazards.md R120) and taking a word. -/

namespace Sys2Proof.Machine

/-- `DictRead(c)` and `TableRead(c)`: the entry of code `c`, `⊥` when it is not listed (20_memory.md R41, R46). -/
def Memory.read : Memory → Nat → Option SymSeq
  | [], _ => none
  | (k, v) :: m, c => if k = c then some v else Memory.read m c

/-- The memory with entry `c` holding the sequence `v`. -/
def Memory.insert : Memory → Nat → SymSeq → Memory
  | [], c, v => [(c, v)]
  | (k, x) :: m, c, v =>
    if c < k then (c, v) :: (k, x) :: m
    else if c = k then (c, v) :: m
    else (k, x) :: Memory.insert m c v

/-- The memory with entry `c` holding `⊥`. -/
def Memory.erase : Memory → Nat → Memory
  | [], _ => []
  | (k, x) :: m, c => if k = c then m else (k, x) :: Memory.erase m c

/-- `DictWrite(c, seq)` and `TableWrite(c, seq)` (20_memory.md R41, R46); the entry may be `⊥`. -/
def Memory.write (m : Memory) (c : Nat) : Option SymSeq → Memory
  | some v => m.insert c v
  | none => m.erase c

/-- `Lookup(seq)`: the code whose entry is `seq`, or `⊥` (20_memory.md R41). The code is unique by 10_state.md R25
(6); where a state breaks that, the least one is taken (log 11). -/
def Memory.lookup : Memory → SymSeq → Option Nat
  | [], _ => none
  | (k, v) :: m, q => if v = q then some k else Memory.lookup m q

/-- The entries `0 .. 255`: the one-symbol sequences (40_encoder.md R80; 41_decoder.md R88). -/
def literalEntries : Memory := (List.range nsym).map fun s => (s, [BitVec.ofNat 8 s])

/-- The dictionary ENC_INIT builds: the literals, every other entry `⊥` (40_encoder.md R80). -/
def freshDict : Memory := literalEntries

/-- The table DEC_INIT builds: the literals, entry 256 empty, every other entry `⊥` (41_decoder.md R88). -/
def freshTable : Memory := literalEntries ++ [(sentinel, [])]

/-- `Emit(U, word)` (00_scope.md R14; 20_memory.md R55). -/
def UnitCore.emit (p : UnitCore) (o : OutWord) : UnitCore := { p with out := p.out ++ [o] }

/-- Close the output of the stream that is open, if one is: the CLOSE word of the error action (60_exceptions.md
R105) and of an abandoned stream (R102). -/
def UnitCore.closeIfOpen (st : Status) (p : UnitCore) : UnitCore :=
  if p.state = .active then p.emit (closeWord st) else p

/-- The part of the error action both units share (60_exceptions.md R105): close the open output, record the
code, enter ERROR. -/
def UnitCore.raiseError (code : Status) (p : UnitCore) : UnitCore :=
  { p.closeIfOpen code with err := code, state := .error }

/-- The part of INIT both units share, which is also the one return from ERROR (40_encoder.md R80; 41_decoder.md
R88; 60_exceptions.md R108): close an abandoned stream, clear the code, open a stream. -/
def UnitCore.openStream (p : UnitCore) : UnitCore :=
  { p.closeIfOpen .aborted with err := .ok, state := .active }

/-- `Emit(ENC, word)`. -/
def EncUnit.emit (e : EncUnit) (o : OutWord) : EncUnit := { e with toUnitCore := e.toUnitCore.emit o }

/-- `Emit(DEC, word)`. -/
def DecUnit.emit (d : DecUnit) (o : OutWord) : DecUnit := { d with toUnitCore := d.toUnitCore.emit o }

/-- `EmitSeq(seq)`: one SYMWORD a symbol, in order (00_scope.md R14). -/
def DecUnit.emitSeq (d : DecUnit) : SymSeq → DecUnit
  | [] => d
  | s :: q => (d.emit (symWord s)).emitSeq q

/-- `raise StreamError(code)` in ENC (60_exceptions.md R105): the shared part, and `ENC.w <- ⊥`. Nothing else
changes: the dictionary and the counter stay as they were (log 4). -/
def EncUnit.streamError (code : Status) (e : EncUnit) : EncUnit :=
  { e with toUnitCore := e.toUnitCore.raiseError code, w := none }

/-- `raise StreamError(code)` in DEC (60_exceptions.md R105): the shared part, and `DEC.current <- ⊥`. -/
def DecUnit.streamError (code : Status) (d : DecUnit) : DecUnit :=
  { d with toUnitCore := d.toUnitCore.raiseError code, current := none }

/-- Steps 1, 4, 5 and 6 of the dispatch of a legal command other than INIT on ENC (60_exceptions.md R104). -/
def EncUnit.dispatch (perform : EncUnit → Except Fault EncUnit) (e : EncUnit) : Except Fault EncUnit :=
  match e.state with
  | .error => .ok e
  | .idle => .ok (e.streamError .sequence)
  | .done => .ok (e.streamError .sequence)
  | .active => perform e

/-- Steps 1, 4, 5 and 6 of the dispatch of a legal command other than INIT on DEC (60_exceptions.md R104): the
decoder ignores a command in DONE. -/
def DecUnit.dispatch (perform : DecUnit → Except Fault DecUnit) (d : DecUnit) : Except Fault DecUnit :=
  match d.state with
  | .error => .ok d
  | .idle => .ok (d.streamError .sequence)
  | .done => .ok d
  | .active => perform d

/-- Steps 1 and 2 of the dispatch of an illegal word on ENC (60_exceptions.md R104). -/
def EncUnit.illegalWord (e : EncUnit) : EncUnit :=
  if e.state = .error then e else e.streamError .illegalCmd

/-- Steps 1 and 2 of the dispatch of an illegal word on DEC (60_exceptions.md R104). -/
def DecUnit.illegalWord (d : DecUnit) : DecUnit :=
  if d.state = .error then d else d.streamError .illegalCmd

/-- Run a command of the encoder: it reads W and touches ENC only (20_memory.md R56). -/
def State.onEnc (f : Width → EncUnit → Except Fault EncUnit) (s : State) : Host.Outcome State Fault Refusal :=
  match f s.param s.enc with
  | .ok e => .next { s with enc := e }
  | .error r => .fault r

/-- Run a command of the decoder: it reads W and touches DEC only (20_memory.md R56). -/
def State.onDec (f : Width → DecUnit → Except Fault DecUnit) (s : State) : Host.Outcome State Fault Refusal :=
  match f s.param s.dec with
  | .ok d => .next { s with dec := d }
  | .error r => .fault r

/-- The fields a unit shares with the other (10_state.md R16, R21). -/
def State.unitCore (s : State) : UnitId → UnitCore
  | .enc => s.enc.toUnitCore
  | .dec => s.dec.toUnitCore

/-- `raise StreamError(code)` in unit `u` (60_exceptions.md R105). -/
def State.streamError (u : UnitId) (code : Status) (s : State) : State :=
  match u with
  | .enc => { s with enc := s.enc.streamError code }
  | .dec => { s with dec := s.dec.streamError code }

/-- An illegal word received by unit `u` (60_exceptions.md R96, R104). -/
def State.illegalWord (u : UnitId) (s : State) : State :=
  match u with
  | .enc => { s with enc := s.enc.illegalWord }
  | .dec => { s with dec := s.dec.illegalWord }

/-- Hardware reset: every field of both units at its reset value, PARAM unaffected (70_reset_and_hazards.md
R120). What the host does afterwards is still to come (log 16). -/
def State.hardReset (s : State) : State := { s with enc := EncUnit.reset, dec := DecUnit.reset }

/-- The host takes the word at the front of `u`'s output queue (20_memory.md R55). From an empty queue it takes
nothing: DESIGN CHOICE, safe (log 9). -/
def State.takeWord (u : UnitId) (s : State) : State :=
  match u with
  | .enc => { s with enc := { s.enc with out := s.enc.out.tail } }
  | .dec => { s with dec := { s.dec with out := s.dec.out.tail } }

end Sys2Proof.Machine
end

