-- ==== Sys2Proof/Machine/Decoder.lean ====
section
/-! DEFINITION. The meanings of the decoder unit's commands (41_decoder.md R88 to R90), each with its dispatch
(60_exceptions.md R104). -/

namespace Sys2Proof.Machine

/-- DEC_INIT's effect (41_decoder.md R88). -/
def DecUnit.init (d : DecUnit) : DecUnit :=
  { d with toUnitCore := d.toUnitCore.openStream, table := freshTable, highestCode := firstLearned,
           current := none }

/-- DEC_CODE of the sentinel: end of stream (41_decoder.md R89). -/
def DecUnit.finish (d : DecUnit) : DecUnit :=
  { d.emit (closeWord .ok) with current := none, state := .done }

/-- DEC_CODE learns an entry at `highestCode` while there is room (41_decoder.md R89). -/
def DecUnit.learn (W : Width) (seq : SymSeq) (d : DecUnit) : DecUnit :=
  if d.highestCode < W.ncodes then
    { d with table := d.table.write d.highestCode (some seq), highestCode := d.highestCode + 1 }
  else d

/-- DEC_CODE once `next` is known: emit it, learn `current ++ [next[0]]`, and make it current (41_decoder.md R89).
`next[0]` needs `next` not to be empty (00_scope.md R13). -/
def DecUnit.accept (W : Width) (cur next : SymSeq) (d : DecUnit) : Except Fault DecUnit :=
  match next with
  | [] => .error .emptySequence
  | x :: _ => .ok { (d.emitSeq next).learn W (cur ++ [x]) with current := some next }

/-- DEC_CODE of the first codeword of a stream (41_decoder.md R89; 60_exceptions.md R99). -/
def DecUnit.firstCode (c : Nat) (d : DecUnit) : Except Fault DecUnit :=
  if firstLearned ≤ c then .ok (d.streamError .corruptFirst)
  else
    match d.table.read c with
    | none => .error .tableEntryAbsent
    | some seq => .ok { d.emitSeq seq with current := some seq }

/-- DEC_CODE of a later codeword, by its class KNOWN, SELF or CORRUPT (41_decoder.md R89; 30_encoding.md R64). -/
def DecUnit.laterCode (W : Width) (c : Nat) (cur : SymSeq) (d : DecUnit) : Except Fault DecUnit :=
  match dynClass d.highestCode c with
  | .known =>
    match d.table.read c with
    | none => .error .tableEntryAbsent
    | some next => d.accept W cur next
  | .self =>
    match cur with
    | [] => .error .emptySequence
    | x :: _ => d.accept W cur (cur ++ [x])
  | .corrupt => .ok (d.streamError .corruptHigh)

/-- DEC_CODE's effect in ACTIVE, its tests in the order of 41_decoder.md R89. -/
def DecUnit.takeCode (c : Nat) (W : Width) (d : DecUnit) : Except Fault DecUnit :=
  if c = sentinel then .ok d.finish
  else if W.ncodes ≤ c then .ok (d.streamError .corruptRange)
  else
    match d.current with
    | none => d.firstCode c
    | some cur => d.laterCode W c cur

/-- DEC_INIT (41_decoder.md R88): acted on in every state (60_exceptions.md R104 steps 1 and 3). -/
def execDecInit (s : State) : Host.Outcome State Fault Refusal :=
  s.onDec fun _ d => .ok d.init

/-- DEC_CODE (41_decoder.md R89). -/
def execDecCode (code : BitVec 12) (s : State) : Host.Outcome State Fault Refusal :=
  s.onDec fun W d => d.dispatch (DecUnit.takeCode (codeOperand code) W)

/-- DEC_EOS (41_decoder.md R90): in ACTIVE the stream ended before its sentinel. -/
def execDecEos (s : State) : Host.Outcome State Fault Refusal :=
  s.onDec fun _ d => d.dispatch fun d => .ok (d.streamError .corruptTruncated)

end Sys2Proof.Machine
end

