-- ==== Sys2Proof/Machine/Encoder.lean ====
section
/-! DEFINITION. The meanings of the encoder unit's commands (40_encoder.md R80 to R82), each with its dispatch
(60_exceptions.md R104). -/

namespace Sys2Proof.Machine

/-- `Child(c, s)`: the code of `dict[c] ++ [s]`, given the sequence of `c` (20_memory.md R41). -/
def Memory.child (m : Memory) (seq : SymSeq) (s : Symbol) : Option Nat := m.lookup (seq ++ [s])

/-- ENC_INIT's effect (40_encoder.md R80). -/
def EncUnit.init (e : EncUnit) : EncUnit :=
  { e with toUnitCore := e.toUnitCore.openStream, dict := freshDict, nextCode := firstLearned, w := none }

/-- ENC_SYM learns `dict[w] ++ [s]` while there is room (40_encoder.md R81). -/
def EncUnit.learn (W : Width) (seq : SymSeq) (e : EncUnit) : EncUnit :=
  if e.nextCode < W.ncodes then
    { e with dict := e.dict.write e.nextCode (some seq), nextCode := e.nextCode + 1 }
  else e

/-- ENC_SYM when a match `w` is pending whose sequence is `seq` (40_encoder.md R81). -/
def EncUnit.extend (W : Width) (s : Symbol) (w : Nat) (seq : SymSeq) (e : EncUnit) : EncUnit :=
  match e.dict.child seq s with
  | some n => { e with w := some n }
  | none => { (e.emit (codeWord w)).learn W (seq ++ [s]) with w := some (symCode s) }

/-- ENC_SYM's effect in ACTIVE (40_encoder.md R81). -/
def EncUnit.takeSymbol (s : Symbol) (W : Width) (e : EncUnit) : Except Fault EncUnit :=
  match e.w with
  | none => .ok { e with w := some (symCode s) }
  | some w =>
    match e.dict.read w with
    | none => .error .dictEntryAbsent
    | some seq => .ok (e.extend W s w seq)

/-- ENC_END emits the pending match, if there is one (40_encoder.md R82). -/
def EncUnit.emitPending (e : EncUnit) : EncUnit :=
  match e.w with
  | some w => e.emit (codeWord w)
  | none => e

/-- ENC_END's effect in ACTIVE (40_encoder.md R82). `err` is OK already (log 17). -/
def EncUnit.finish (e : EncUnit) : EncUnit :=
  { (e.emitPending.emit (codeWord sentinel)).emit (closeWord .ok) with w := none, state := .done }

/-- ENC_INIT (40_encoder.md R80): acted on in every state (60_exceptions.md R104 steps 1 and 3). -/
def execEncInit (s : State) : Host.Outcome State Fault Refusal :=
  s.onEnc fun _ e => .ok e.init

/-- ENC_SYM (40_encoder.md R81). -/
def execEncSym (sym : BitVec 8) (s : State) : Host.Outcome State Fault Refusal :=
  s.onEnc fun W e => e.dispatch (EncUnit.takeSymbol (symOperand sym) W)

/-- ENC_END (40_encoder.md R82). -/
def execEncEnd (s : State) : Host.Outcome State Fault Refusal :=
  s.onEnc fun _ e => e.dispatch fun e => .ok e.finish

end Sys2Proof.Machine
end

