-- ==== Sys2Proof/Machine/Dispatch.lean ====
section
/-! DEFINITION. One arm a command: its meaning. -/

namespace Sys2Proof.Machine

def exec (i : Instr) (s : State) : Host.Outcome State Fault Refusal :=
  match i with
  | .encInit => Sys2Proof.Machine.execEncInit s
  | .encSym sym => Sys2Proof.Machine.execEncSym sym s
  | .encEnd => Sys2Proof.Machine.execEncEnd s
  | .decInit => Sys2Proof.Machine.execDecInit s
  | .decCode code => Sys2Proof.Machine.execDecCode code s
  | .decEos => Sys2Proof.Machine.execDecEos s

end Sys2Proof.Machine
end

