-- ==== Sys2Proof/Machine/Control.lean ====
section
/-! DEFINITION. What one host action does to the machine: a command word is decoded on its unit and run, or is
illegal there (60_exceptions.md R104); a word is taken; the machine is reset. -/

namespace Sys2Proof.Machine

/-- `Dispatch(U, cmd)` (60_exceptions.md R104): a legal word runs as its command, which checks the unit's state
itself; any other word is illegal. -/
def runWord (u : UnitId) (cmd : CmdWord) (s : State) : Host.Outcome State Fault Refusal :=
  match decode u cmd with
  | .ok i => exec i s
  | .error _ => .next (s.illegalWord u)

/-- One action of the host. -/
def act (a : HostAction) (s : State) : Host.Outcome State Fault Refusal :=
  match a with
  | .send u cmd => runWord u cmd s
  | .take u => .next (s.takeWord u)
  | .hardReset => .next s.hardReset

/-- One step: the oldest host action still to come takes place whole (00_scope.md R6, R15). With none to come the
units keep their state (60_exceptions.md R119). -/
def stepHost (s : State) : Host.Outcome State Fault Refusal :=
  match s.host with
  | [] => .next s
  | a :: rest => act a { s with host := rest }

/-- The host sends `cmd` to unit `u` before anything else it was going to do. -/
def State.sendFirst (u : UnitId) (cmd : CmdWord) (s : State) : State :=
  { s with host := .send u cmd :: s.host }

end Sys2Proof.Machine
end

