-- ==== Sys2Proof/Machine/Step.lean ====
section
/-! DEFINITION. The step of the machine, and the state whose next step runs a given word. -/

namespace Sys2Proof.Machine

/-- One step of LZWC (00_scope.md R6). -/
def step (s : State) : Host.Outcome State Fault Refusal := stepHost s

/-- `s` with a word of the opcode table as the next command word the host sends, to the unit that has its opcode
(log 6, log 7). -/
def State.withFetchWord (s : State) (nbits w : Nat) : State :=
  s.sendFirst (homeUnit (tableWord nbits w)) (tableWord nbits w)

end Sys2Proof.Machine
end

