-- ==== Sys2Proof/Machine/Assembler.lean ====
section
/-! DEFINITION. The pseudo-commands (30_encoding.md R79) and the command text (R78). Notation only: no rule of
the machine depends on it (log 13). -/

namespace Sys2Proof.Machine

/-- `ENC_TEXT "s"`: one ENC_SYM a symbol, in order (30_encoding.md R79). -/
def encText (text : SymSeq) : List Instr := text.map Instr.encSym

/-- `ENC_STREAM "s"`: one whole compress invocation (30_encoding.md R79). -/
def encStream (text : SymSeq) : List Instr := .encInit :: (encText text ++ [.encEnd])

/-- `DEC_CODES c1, c2, ...` (30_encoding.md R79). -/
def decCodes (codes : List Nat) : List Instr := codes.map fun c => Instr.decCode (BitVec.ofNat 12 c)

/-- `DEC_STREAM c1, ..., ck`: one whole expand invocation (30_encoding.md R79). -/
def decStream (codes : List Nat) : List Instr := .decInit :: (decCodes codes ++ [.decEos])

/-- A word for a unit's command input. -/
structure UnitWord where
  unit : UnitId
  word : CmdWord
  deriving DecidableEq, Repr

/-- The words of commands, each for its own unit (30_encoding.md R66). -/
def assembleInstrs (is : List Instr) : List UnitWord := is.map fun i => ⟨i.unit, encode i⟩

/-- What is wrong with a line of command text. -/
inductive AsmError where
  /-- A quote is not closed, or a quoted character is not one character. -/
  | badQuote
  /-- The line's words are no command with its operands. -/
  | badLine
  /-- A number that is none, or is out of its operand's range. -/
  | badNumber
  deriving DecidableEq, Repr

/-- A token of a line. -/
inductive Token where
  | word (cs : List Char)
  | character (c : Char)
  | text (cs : List Char)
  | comma
  deriving DecidableEq, Repr

/-- Where the scanner is in a line. -/
inductive Scan where
  | between
  | inWord (acc : List Char)
  | inText (acc : List Char)
  | quoteOpen
  | quoteHeld (c : Char)
  deriving DecidableEq, Repr

/-- The word read so far, as a token, or none between tokens. -/
def Scan.pending : Scan → List Token
  | .inWord acc => [.word acc.reverse]
  | .between => []
  | .inText _ => []
  | .quoteOpen => []
  | .quoteHeld _ => []

/-- The tokens of a line: words, characters in single quotes, text in double quotes, commas; a `;` outside quotes
starts a comment (30_encoding.md R78). -/
def scan : Scan → List Char → Except AsmError (List Token)
  | .inText _, [] => .error .badQuote
  | .quoteOpen, [] => .error .badQuote
  | .quoteHeld _, [] => .error .badQuote
  | st, [] => .ok st.pending
  | .quoteOpen, c :: cs => scan (.quoteHeld c) cs
  | .quoteHeld a, c :: cs =>
    if c = '\'' then (scan .between cs).map (Token.character a :: ·) else .error .badQuote
  | .inText acc, c :: cs =>
    if c = '"' then (scan .between cs).map (Token.text acc.reverse :: ·) else scan (.inText (c :: acc)) cs
  | st, c :: cs =>
    if c = ';' then .ok st.pending
    else if c = ' ' ∨ c = '\t' ∨ c = '\r' then (scan .between cs).map (st.pending ++ ·)
    else if c = ',' then (scan .between cs).map (st.pending ++ Token.comma :: ·)
    else if c = '"' then (scan (.inText []) cs).map (st.pending ++ ·)
    else if c = '\'' then (scan .quoteOpen cs).map (st.pending ++ ·)
    else
      match st with
      | .inWord acc => scan (.inWord (c :: acc)) cs
      | _ => scan (.inWord [c]) cs

/-- The value of a digit, hexadecimal letters of either case included. -/
def digitValue (c : Char) : Option Nat :=
  if '0' ≤ c ∧ c ≤ '9' then some (c.toNat - '0'.toNat)
  else if 'a' ≤ c ∧ c ≤ 'f' then some (c.toNat - 'a'.toNat + 10)
  else if 'A' ≤ c ∧ c ≤ 'F' then some (c.toNat - 'A'.toNat + 10)
  else none

/-- The number that digits in a base spell, after the value read so far. -/
def digitsValue (base : Nat) : List Char → Nat → Option Nat
  | [], n => some n
  | c :: cs, n =>
    match digitValue c with
    | none => none
    | some d => if d < base then digitsValue base cs (base * n + d) else none

/-- A number, decimal or `0x` hexadecimal (30_encoding.md R78). -/
def numberValue : List Char → Option Nat
  | [] => none
  | '0' :: 'x' :: c :: cs => digitsValue 16 (c :: cs) 0
  | c :: cs => digitsValue 10 (c :: cs) 0

/-- A number within an operand's range. -/
def numberIn (ok : Nat → Bool) (cs : List Char) : Except AsmError Nat :=
  match numberValue cs with
  | none => .error .badNumber
  | some n => if ok n then .ok n else .error .badNumber

/-- A character's 8-bit code (30_encoding.md R78); a character without one is refused (log 13). -/
def charSymbol (c : Char) : Except AsmError Symbol :=
  if symNumberOk c.toNat then .ok (BitVec.ofNat 8 c.toNat) else .error .badNumber

/-- The symbols of a text, one for each character (30_encoding.md R79). -/
def textSymbols (cs : List Char) : Except AsmError SymSeq := cs.mapM charSymbol

/-- A list of codewords separated by commas (30_encoding.md R79). -/
def codeList : List Token → Except AsmError (List Nat)
  | [.word cs] => (numberIn codeNumberOk cs).map ([·])
  | .word cs :: .comma :: rest =>
    match numberIn codeNumberOk cs with
    | .error e => .error e
    | .ok c => (codeList rest).map (c :: ·)
  | _ => .error .badLine

/-- A word given as a number on unit `u` (30_encoding.md R78, `.word`). -/
def rawWord (u : UnitId) (cs : List Char) : Except AsmError (List UnitWord) :=
  (numberIn wordNumberOk cs).map fun n => [⟨u, BitVec.ofNat 16 n⟩]

/-- The words of a line's command, by its mnemonic and operands (30_encoding.md R78, R79). -/
def lineWords (mnemonic : String) (operands : List Token) : Except AsmError (List UnitWord) :=
  match mnemonic, operands with
  | "ENC_INIT", [] => .ok (assembleInstrs [.encInit])
  | "ENC_SYM", [.word cs] =>
    (numberIn symNumberOk cs).map fun n => assembleInstrs [.encSym (BitVec.ofNat 8 n)]
  | "ENC_SYM", [.character c] => (charSymbol c).map fun s => assembleInstrs [.encSym s]
  | "ENC_END", [] => .ok (assembleInstrs [.encEnd])
  | "DEC_INIT", [] => .ok (assembleInstrs [.decInit])
  | "DEC_CODE", [.word cs] =>
    (numberIn codeNumberOk cs).map fun n => assembleInstrs [.decCode (BitVec.ofNat 12 n)]
  | "DEC_EOS", [] => .ok (assembleInstrs [.decEos])
  | "ENC_TEXT", [.text cs] => (textSymbols cs).map fun t => assembleInstrs (encText t)
  | "ENC_STREAM", [.text cs] => (textSymbols cs).map fun t => assembleInstrs (encStream t)
  | "DEC_CODES", ts => (codeList ts).map fun c => assembleInstrs (decCodes c)
  | "DEC_STREAM", ts => (codeList ts).map fun c => assembleInstrs (decStream c)
  | "ENC", [.word d, .word cs] => if String.ofList d = ".word" then rawWord .enc cs else .error .badLine
  | "DEC", [.word d, .word cs] => if String.ofList d = ".word" then rawWord .dec cs else .error .badLine
  | _, _ => .error .badLine

/-- The words of one line of command text; a blank line has none (30_encoding.md R78). -/
def assembleLine (line : List Char) : Except AsmError (List UnitWord) :=
  match scan .between line with
  | .error e => .error e
  | .ok [] => .ok []
  | .ok (.word m :: operands) => lineWords (String.ofList m) operands
  | .ok _ => .error .badLine

/-- The words of a text, one command a line (30_encoding.md R78). -/
def assemble (lines : List (List Char)) : Except AsmError (List UnitWord) :=
  (lines.mapM assembleLine).map List.flatten

/-- The words one unit receives of a text for both, split by its unit (30_encoding.md R78). -/
def wordsOf (u : UnitId) (ws : List UnitWord) : List CmdWord :=
  (ws.filter fun x => x.unit = u).map UnitWord.word

/-- The host's actions that send the words of a text in order. -/
def sendAll (ws : List UnitWord) : List HostAction := ws.map fun x => .send x.unit x.word

end Sys2Proof.Machine
end

