-- ==== Sys2Proof/Machine/Source.lean ====
section
/-! DEFINITION. The source's compress algorithm (§4.2, as 20_memory.md R42 and 40_encoder.md R80 to R83 quote it),
on the whole input at once: what the streaming encoder is compared with (40_encoder.md R83; log 18). -/

namespace Sys2Proof.Machine

/-- The greatest `n <= bound` such that the first `n` symbols of the text are a stored sequence, 0 if none is. -/
def Memory.longestLen (m : Memory) (text : SymSeq) : Nat → Nat
  | 0 => 0
  | n + 1 => if (m.lookup (text.take (n + 1))).isSome then n + 1 else m.longestLen text n

/-- `longestPrefixMatch(text, i)` on the text from position `i` on: the longest stored sequence that begins it
(20_memory.md R42). -/
def Memory.longestMatch (m : Memory) (text : SymSeq) : SymSeq := text.take (m.longestLen text text.length)

/-- The source's final dictionary, counter and codewords. -/
structure Compressed where
  codes : List Nat
  dict : Memory
  nextCode : Nat
  deriving DecidableEq, Repr

/-- Step 3c of §4.2: learn the match and the symbol after it, if there is one and there is room (40_encoder.md
R81). -/
def compressLearn (W : Width) (text found : SymSeq) (m : Memory) (next : Nat) : Memory × Nat :=
  if found.length < text.length ∧ next < W.ncodes then
    (m.write next (some (text.take (found.length + 1))), next + 1)
  else (m, next)

/-- Steps 3 and 4 of §4.2 from a position on, at most `fuel` matches: emit the longest match's code, learn, go
past the match; at the end of the text emit the sentinel (40_encoder.md R81, R82). A code that `codeOf` does not
find does not occur (20_memory.md R42: it "always succeeds"). -/
def compressFrom (W : Width) : Nat → SymSeq → Memory → Nat → Compressed
  | 0, _, m, next => ⟨[sentinel], m, next⟩
  | _ + 1, [], m, next => ⟨[sentinel], m, next⟩
  | fuel + 1, text, m, next =>
    let found := m.longestMatch text
    let learnt := compressLearn W text found m next
    let rest := compressFrom W fuel (text.drop found.length) learnt.1 learnt.2
    { rest with codes := (m.lookup found).toList ++ rest.codes }

/-- `compress(S)` of §4.2: a match is at least one symbol long, so the text's length is fuel enough. -/
def compress (W : Width) (text : SymSeq) : Compressed :=
  compressFrom W text.length text freshDict firstLearned

end Sys2Proof.Machine
end

