-- ==== Sys2Proof/Machine/Wire.lean ====
section
/-! DEFINITION. The wire format and the interface contract of the collaborators around the core: packing
(30_encoding.md R73 to R75), unpacking (R76), and what the output words stand for (R72; 60_exceptions.md R114,
R115). The core's rules do not depend on it (00_scope.md R5(a); log 12). -/

namespace Sys2Proof.Machine

/-- The `W` bits of a codeword, most significant first (30_encoding.md R74). -/
def codeBits (W : Width) (c : Nat) : List Bool :=
  (List.range W.bits).map fun t => c.testBit (W.bits - 1 - t)

/-- The bit stream of a list of codewords: their bits one after another (30_encoding.md R74). -/
def streamBits (W : Width) (codes : List Nat) : List Bool := codes.flatMap (codeBits W)

/-- The number a list of bits spells, most significant bit first. -/
def bitsNat (bs : List Bool) : Nat := bs.foldl (fun n b => 2 * n + b.toNat) 0

/-- Byte `j` of a bit stream: its bit `7 - t` is stream bit `8 j + t`, and a bit after the end is zero
(30_encoding.md R75). -/
def packByte (bs : List Bool) (j : Nat) : WireByte :=
  BitVec.ofNat 8 (bitsNat ((List.range 8).map fun t => bs.getD (8 * j + t) false))

/-- A bit stream as bytes, the last one completed with zero bits (30_encoding.md R75). -/
def packBits (bs : List Bool) : List WireByte := (List.range ((bs.length + 7) / 8)).map (packByte bs)

/-- The bytes of a compressed stream (30_encoding.md R73 to R75): `writeBits(c, W)` for each codeword, then
`close()`. -/
def packCodes (W : Width) (codes : List Nat) : List WireByte := packBits (streamBits W codes)

/-- The bits of one byte in stream order (30_encoding.md R75). -/
def byteBits (b : WireByte) : List Bool := (List.range 8).map fun t => b.getLsbD (7 - t)

/-- The bit stream the reader sees. -/
def readerBits (bytes : List WireByte) : List Bool := bytes.flatMap byteBits

/-- Codeword `j` of a bit stream: stream bits `jW .. jW+W-1` (30_encoding.md R76). -/
def readCode (W : Width) (bs : List Bool) (j : Nat) : Nat := bitsNat ((bs.drop (j * W.bits)).take W.bits)

/-- `readBits(W)` until fewer than `W` bits remain; padding is not checked (30_encoding.md R76). -/
def unpackCodes (W : Width) (bytes : List WireByte) : List Nat :=
  (List.range ((readerBits bytes).length / W.bits)).map (readCode W (readerBits bytes))

/-- The commands the reader delivers: a DEC_CODE a codeword, then DEC_EOS (30_encoding.md R76). -/
def deliver (W : Width) (bytes : List WireByte) : List Instr :=
  ((unpackCodes W bytes).map fun c => Instr.decCode (BitVec.ofNat 12 c)) ++ [.decEos]

/-- A DATA word (30_encoding.md R70). -/
def isData (o : OutWord) : Bool := outTag o == tagData

/-- A CLOSE word (30_encoding.md R70). -/
def isClose (o : OutWord) : Bool := outTag o == tagClose

/-- The codewords an encoder's output words carry, in order (30_encoding.md R71, R73). -/
def dataCodes (ws : List OutWord) : List Nat := (ws.filter isData).map fun o => (outPayload o).toNat

/-- The bytes the packer makes of the encoder's output words of one stream (30_encoding.md R72; 60_exceptions.md
R114). -/
def packOutput (W : Width) (ws : List OutWord) : List WireByte := packCodes W (dataCodes ws)

/-- The bytes `writeSymbols` writes for the decoder's output words of one stream (30_encoding.md R72;
60_exceptions.md R115). -/
def writtenSymbols (ws : List OutWord) : List Symbol := (ws.filter isData).map fun o => o.extractLsb' 0 8

end Sys2Proof.Machine
end

