-- ==== Sys2Proof/Safety.lean ====
section
/-! DEFINITION. What a good state is (10_state.md R25, R26, with the canonical form of the memories), runs of
commands, and when two states cannot be told apart (10_state.md R38; 20_memory.md R61). -/

namespace Sys2Proof.Machine

/-- Every code of the memory is in the code space (20_memory.md R40, R45). -/
def Memory.within (n : Nat) (m : Memory) : Prop := ∀ cell ∈ m, cell.1 < n

/-- The learned entries of a dictionary whose next code is `next`, and the free ones (10_state.md R25 (3), (4), (5)
and R26 (3), (4), (5)). -/
structure Memory.Learned (W : Width) (next : Nat) (m : Memory) : Prop where
  /-- (1) the literals. -/
  literals : ∀ s : Symbol, m.read s.toNat = some [s]
  /-- (3) the counter. -/
  counter : firstLearned ≤ next ∧ next ≤ W.ncodes
  /-- (4) a learned entry is a sequence of length 2 to `c - 255`. -/
  lengths : ∀ c, firstLearned ≤ c → c < next → ∃ q, m.read c = some q ∧ 2 ≤ q.length ∧ q.length ≤ c - 255
  /-- (4) the entries from `next` on are `⊥`. -/
  free : ∀ c, next ≤ c → m.read c = none
  /-- (5) closed under taking off the last symbol. -/
  closed : ∀ c q, firstLearned ≤ c → m.read c = some q →
    ∃ p, p < c ∧ p ≠ sentinel ∧ m.read p = some q.dropLast

/-- 10_state.md R25: what holds of ENC in ACTIVE and DONE. -/
structure EncUnit.OpenInv (W : Width) (e : EncUnit) : Prop where
  /-- (1), (3), (4), (5). -/
  learned : e.dict.Learned W e.nextCode
  /-- (2). -/
  noSentinel : e.dict.read sentinel = none
  /-- (6). -/
  unique : ∀ c c' q, e.dict.read c = some q → e.dict.read c' = some q → c = c'
  /-- (7). -/
  pending : ∀ c, e.w = some c → ∃ q, e.dict.read c = some q

/-- 10_state.md R26: what holds of DEC in ACTIVE and DONE. `current` is an entry of the table other than 256, as
20_memory.md R47 says, and so is not empty (6). -/
structure DecUnit.OpenInv (W : Width) (d : DecUnit) : Prop where
  /-- (1), (3), (4), (5). -/
  learned : d.table.Learned W d.highestCode
  /-- (2). -/
  sentinelEmpty : d.table.read sentinel = some []
  /-- (6), and R47. -/
  current : ∀ q, d.current = some q → ∃ p, p ≠ sentinel ∧ d.table.read p = some q

/-- The status code a unit record holds: an error's in ERROR, OK elsewhere, never ABORTED (10_state.md R32;
60_exceptions.md R95, R107). -/
def UnitCore.ErrInv (p : UnitCore) : Prop := p.err ≠ .aborted ∧ (p.state = .error ↔ p.err ≠ .ok)

/-- A CLOSE word a unit can emit: SEQUENCE is never in one (60_exceptions.md R95, R97). -/
def IsCloseWord (o : OutWord) : Prop := ∃ st : Status, st ≠ .sequence ∧ o = closeWord st

/-- The words of the encoder's queue (30_encoding.md R71; 40_encoder.md R84). -/
def EncOutput (W : Width) (ws : List OutWord) : Prop :=
  ∀ o ∈ ws, (∃ c, c < W.ncodes ∧ o = codeWord c) ∨ IsCloseWord o

/-- The words of the decoder's queue (30_encoding.md R71). -/
def DecOutput (ws : List OutWord) : Prop := ∀ o ∈ ws, (∃ s, o = symWord s) ∨ IsCloseWord o

/-- A good encoder record: canonical memory in the code space, R25 in ACTIVE and DONE, a pending match in ACTIVE
only, the status code and the queue as the spec says. -/
structure EncUnit.Inv (W : Width) (e : EncUnit) : Prop where
  wf : e.dict.wf
  within : e.dict.within W.ncodes
  bound : e.nextCode ≤ W.ncodes
  opened : e.state = .active ∨ e.state = .done → e.OpenInv W
  pendActive : e.w.isSome = true → e.state = .active
  err : e.toUnitCore.ErrInv
  output : EncOutput W e.out

/-- A good decoder record: canonical memory in the code space, R26 in ACTIVE and DONE, `current` in ACTIVE only,
the status code and the queue as the spec says. -/
structure DecUnit.Inv (W : Width) (d : DecUnit) : Prop where
  wf : d.table.wf
  within : d.table.within W.ncodes
  bound : d.highestCode ≤ W.ncodes
  opened : d.state = .active ∨ d.state = .done → d.OpenInv W
  pendActive : d.current.isSome = true → d.state = .active
  err : d.toUnitCore.ErrInv
  output : DecOutput d.out

/-- A good state: both units good. PARAM needs no clause, its width is 9 to 12 by its type. -/
structure State.Inv (s : State) : Prop where
  enc : s.enc.Inv s.param
  dec : s.dec.Inv s.param

/-- Run commands one after another, each on its own unit, stopping at a fault or refusal. -/
def runInstrs : List Instr → State → Host.Outcome State Fault Refusal
  | [], s => .next s
  | i :: is, s =>
    match exec i s with
    | .next t => runInstrs is t
    | .fault r => .fault r
    | .refused r => .refused r

/-- A unit's output queue once INIT has closed the stream that was open, if one was (60_exceptions.md R102). -/
def UnitCore.queueAtInit (p : UnitCore) : List OutWord :=
  p.out ++ (if p.state = .active then [closeWord .aborted] else [])

/-- The loops of ENC_INIT as the spec writes them, over any dictionary (40_encoder.md R80). -/
def encInitLoops (W : Width) (m : Memory) : Memory :=
  (List.range' nsym (W.ncodes - nsym)).foldl (fun m c => m.write c none)
    ((List.range nsym).foldl (fun m s => m.write s (some [BitVec.ofNat 8 s])) m)

/-- The loops of DEC_INIT as the spec writes them, over any table (41_decoder.md R88). -/
def decInitLoops (W : Width) (m : Memory) : Memory :=
  (List.range' firstLearned (W.ncodes - firstLearned)).foldl (fun m c => m.write c none)
    (((List.range nsym).foldl (fun m s => m.write s (some [BitVec.ofNat 8 s])) m).write sentinel (some []))

/-- Two encoder records the host cannot tell apart: they may differ in a dictionary no command reads before the
next INIT (10_state.md R38; 20_memory.md R61). -/
def EncUnit.Alike (e e' : EncUnit) : Prop :=
  e.toUnitCore = e'.toUnitCore ∧ e.nextCode = e'.nextCode ∧ e.w = e'.w ∧ (e.state = .active → e.dict = e'.dict)

/-- Two decoder records the host cannot tell apart (10_state.md R38; 20_memory.md R61). -/
def DecUnit.Alike (d d' : DecUnit) : Prop :=
  d.toUnitCore = d'.toUnitCore ∧ d.highestCode = d'.highestCode ∧ d.current = d'.current ∧
    (d.state = .active → d.table = d'.table)

/-- Two states the host cannot tell apart. -/
def State.Alike (s s' : State) : Prop :=
  s.param = s'.param ∧ s.host = s'.host ∧ s.enc.Alike s'.enc ∧ s.dec.Alike s'.dec

end Sys2Proof.Machine
end

