-- ==== Sys2Proof/Certificates/Slice0/Obligations.lean ====
section
/-! DEFINITION. The statements for the provers. Each docstring names the rule of spec/ it formalises. -/

open Sys2Proof Sys2Proof.Machine

/-! ## Reset, the host's actions, dispatch -/

/-- 10_state.md R38, the reset column, but for the unspecified dictionaries (log 3): no clause speaks of them. -/
def Obligations.ResetState : Prop :=
  State.reset.param = .twelve ∧
  State.reset.enc.state = .idle ∧ State.reset.enc.err = .ok ∧ State.reset.enc.nextCode = 0 ∧
  State.reset.enc.w = none ∧ State.reset.enc.out = [] ∧
  State.reset.dec.state = .idle ∧ State.reset.dec.err = .ok ∧ State.reset.dec.highestCode = 0 ∧
  State.reset.dec.current = none ∧ State.reset.dec.out = [] ∧
  State.reset.readPort 0 = 0x00000000#32 ∧ State.reset.readPort 1 = 0x00000000#32 ∧
  State.reset.readPort 2 = 0x0000000C#32

/-- 70_reset_and_hazards.md R120: hardware reset at any moment, open streams and queued words included. That the
host's later actions are still to come after it (`t.host = rest`) is the model's choice (log 16). -/
def Obligations.HardwareResetClearsBothUnits : Prop :=
  ∀ (s : State) (rest : List HostAction), s.host = .hardReset :: rest →
    ∃ t, step s = .next t ∧ t.param = s.param ∧ t.host = rest ∧
      t.enc.state = .idle ∧ t.enc.err = .ok ∧ t.enc.nextCode = 0 ∧ t.enc.w = none ∧ t.enc.out = [] ∧
      t.dec.state = .idle ∧ t.dec.err = .ok ∧ t.dec.highestCode = 0 ∧ t.dec.current = none ∧ t.dec.out = [] ∧
      t.readPort 0 = 0x00000000#32 ∧ t.readPort 1 = 0x00000000#32 ∧ t.readPort 2 = s.readPort 2

/-- 60_exceptions.md R104: a legal word the host sends is run as the command it decodes to, on its unit, and is
consumed. -/
def Obligations.StepRunsDecodedCommand : Prop :=
  ∀ (s : State) (u : UnitId) (cmd : CmdWord) (rest : List HostAction) (i : Instr),
    s.host = .send u cmd :: rest → decode u cmd = .ok i → step s = exec i { s with host := rest }

/-- 60_exceptions.md R119: with nothing to act on, the units keep all of their state. The rule's clause on a full
queue has no counterpart: the queues are unbounded (log 8). -/
def Obligations.StepWithoutActionKeepsState : Prop :=
  ∀ s : State, s.host = [] → step s = .next s

/-- 20_memory.md R55: the host takes the word at the front of a queue; nothing else changes. That an empty queue
stays empty is the model's choice (log 9). -/
def Obligations.TakeRemovesFrontWord : Prop :=
  ∀ (s : State) (rest : List HostAction) (o : OutWord) (ws : List OutWord),
    (s.host = .take .enc :: rest → s.enc.out = o :: ws →
      step s = .next { s with host := rest, enc := { s.enc with out := ws } }) ∧
    (s.host = .take .dec :: rest → s.dec.out = o :: ws →
      step s = .next { s with host := rest, dec := { s.dec with out := ws } })

/-- 60_exceptions.md R96: a word that is not legal on its unit raises ILLEGAL_CMD in IDLE, ACTIVE and DONE, and is
ignored in ERROR; only the status code is recorded. -/
def Obligations.IllegalWordRaisesIllegalCmd : Prop :=
  ∀ (s : State) (u : UnitId) (cmd : CmdWord) (rest : List HostAction),
    s.host = .send u cmd :: rest → legal u cmd = false →
    ((s.unitCore u).state ≠ .error → step s = .next ({ s with host := rest }.streamError u .illegalCmd)) ∧
    ((s.unitCore u).state = .error → step s = .next { s with host := rest })

/-- 60_exceptions.md R105: the error action of both units, field by field. -/
def Obligations.ErrorAction : Prop :=
  ∀ (s : State) (code : Status),
    s.streamError .enc code =
      { s with enc := { s.enc with
          out := s.enc.out ++ (if s.enc.state = .active then [closeWord code] else []),
          err := code, state := .error, w := none } } ∧
    s.streamError .dec code =
      { s with dec := { s.dec with
          out := s.dec.out ++ (if s.dec.state = .active then [closeWord code] else []),
          err := code, state := .error, current := none } }

/-- 60_exceptions.md R107: a unit in ERROR acts on a legal INIT only; it consumes every other word without output
and keeps its status code. -/
def Obligations.ErrorStateIgnoresAllButInit : Prop :=
  ∀ (s : State) (u : UnitId) (cmd : CmdWord) (rest : List HostAction),
    s.host = .send u cmd :: rest → (s.unitCore u).state = .error →
    (cmd ≠ 0x1000#16 → step s = .next { s with host := rest }) ∧
    (cmd = 0x1000#16 → ∃ t, step s = .next t ∧ (t.unitCore u).state = .active ∧ (t.unitCore u).err = .ok)

/-- 60_exceptions.md R108: only INIT or hardware reset leads out of ERROR, and INIT starts afresh. -/
def Obligations.OnlyInitOrResetLeavesError : Prop :=
  ∀ (s t : State) (u : UnitId),
    step s = .next t → (s.unitCore u).state = .error → (t.unitCore u).state ≠ .error →
    ∃ rest, s.host = .hardReset :: rest ∨
      (s.host = .send u 0x1000#16 :: rest ∧ (t.unitCore u).state = .active ∧ (t.unitCore u).err = .ok ∧
        (u = .enc → t.enc.dict = freshDict ∧ t.enc.nextCode = firstLearned ∧ t.enc.w = none) ∧
        (u = .dec → t.dec.table = freshTable ∧ t.dec.highestCode = firstLearned ∧ t.dec.current = none))

/-- 60_exceptions.md R97: a legal command other than INIT in IDLE, and ENC_SYM and ENC_END in DONE, raise SEQUENCE,
and no CLOSE word carries it. -/
def Obligations.SequenceErrors : Prop :=
  ∀ (i : Instr) (s : State), i.isInit = false →
    ((s.unitCore i.unit).state = .idle ∨ (i.unit = .enc ∧ s.enc.state = .done)) →
    ∃ t, exec i s = .next t ∧ t = s.streamError i.unit .sequence ∧
      (t.unitCore i.unit).err = .sequence ∧ (t.unitCore i.unit).state = .error ∧
      (t.unitCore i.unit).out = (s.unitCore i.unit).out

/-- 60_exceptions.md R104 step 5: after its sentinel the decoder ignores DEC_CODE and DEC_EOS. -/
def Obligations.DecoderIgnoresCommandsWhenDone : Prop :=
  ∀ (i : Instr) (s : State), i.unit = .dec → i.isInit = false → s.dec.state = .done → exec i s = .next s

/-! ## Encodings -/

/-- 30_encoding.md R66: words written out bit by bit from the opcode map, and words each refused by name. -/
def Obligations.WrittenWordsDecode : Prop :=
  decode .enc 0b0001000000000000#16 = .ok .encInit ∧
  decode .enc 0b0010000001000001#16 = .ok (.encSym 0x41#8) ∧
  decode .enc 0b0011000000000000#16 = .ok .encEnd ∧
  decode .dec 0b0001000000000000#16 = .ok .decInit ∧
  decode .dec 0b0100000100000011#16 = .ok (.decCode 0x103#12) ∧
  decode .dec 0b0101000000000000#16 = .ok .decEos ∧
  decode .enc 0b0100000100000001#16 = .error .otherUnitsOpcode ∧
  decode .dec 0b0010000001000001#16 = .error .otherUnitsOpcode ∧
  decode .enc 0b0010000100000000#16 = .error .nonzeroReserved ∧
  decode .dec 0b0101000000000001#16 = .error .nonzeroArg ∧
  decode .enc 0b0000000000000000#16 = .error .reservedOpcode

/-- 30_encoding.md R68 with R66's list: the legal words of each unit are exactly the listed ones, and exactly those
decode. What an illegal word does is `IllegalWordRaisesIllegalCmd`. -/
def Obligations.LegalWordsAreTheListedOnes : Prop :=
  ∀ cmd : CmdWord,
    (legal .enc cmd = true ↔
      cmd = 0x1000#16 ∨ (0x2000 ≤ cmd.toNat ∧ cmd.toNat ≤ 0x20FF) ∨ cmd = 0x3000#16) ∧
    (legal .dec cmd = true ↔
      cmd = 0x1000#16 ∨ (0x4000 ≤ cmd.toNat ∧ cmd.toNat ≤ 0x4FFF) ∨ cmd = 0x5000#16) ∧
    ∀ u, (legal u cmd = true ↔ ∃ i, decode u cmd = .ok i)

/-- 30_encoding.md R65 to R67: every command, with every operand, decodes from its word on its own unit. -/
def Obligations.DecodeOfEncode : Prop :=
  ∀ i : Instr, decode i.unit (encode i) = .ok i

/-- 30_encoding.md R65 to R67: a word that decodes is the word of the command it decodes to, and a command of the
unit that received it. -/
def Obligations.EncodeOfDecode : Prop :=
  ∀ (u : UnitId) (cmd : CmdWord) (i : Instr), decode u cmd = .ok i → i.unit = u ∧ encode i = cmd

/-! ## Encoder commands -/

/-- 40_encoder.md R80: ENC_INIT in every state, with its whole next state and its STATUS. -/
def Obligations.EncInitStartsStream : Prop :=
  ∀ s : State,
    ∃ t, exec .encInit s = .next t ∧
      t = { s with enc := { state := .active, err := .ok, out := s.enc.toUnitCore.queueAtInit,
                            dict := t.enc.dict, nextCode := 257, w := none } } ∧
      (∀ c : Symbol, t.enc.dict.read c.toNat = some [c]) ∧
      (∀ c, 256 ≤ c → t.enc.dict.read c = none) ∧
      t.encStatus = 0x01010001#32

/-- 60_exceptions.md R102: INIT in ACTIVE closes the abandoned stream with ABORTED, is no error, and starts a new
stream, on either unit. -/
def Obligations.InitInActiveAborts : Prop :=
  ∀ s : State,
    (s.enc.state = .active → ∃ t, exec .encInit s = .next t ∧ t.enc.out = s.enc.out ++ [0xF007#16] ∧
      t.enc.err = .ok ∧ t.enc.state = .active) ∧
    (s.dec.state = .active → ∃ t, exec .decInit s = .next t ∧ t.dec.out = s.dec.out ++ [0xF007#16] ∧
      t.dec.err = .ok ∧ t.dec.state = .active)

/-- 40_encoder.md R81, no match pending: the symbol becomes the pending match; nothing is emitted or learned. -/
def Obligations.EncSymFirstSymbol : Prop :=
  ∀ (s : State) (sym : BitVec 8), s.enc.state = .active → s.enc.w = none →
    exec (.encSym sym) s = .next { s with enc := { s.enc with w := some sym.toNat } }

/-- 40_encoder.md R81, corner case (b): the sequence extended by the symbol is stored, so the match is extended. -/
def Obligations.EncSymExtendsMatch : Prop :=
  ∀ (s : State) (sym : BitVec 8) (w n : Nat) (q : SymSeq),
    s.enc.state = .active → s.enc.w = some w → s.enc.dict.wf → s.enc.dict.read w = some q →
    s.enc.dict.read n = some (q ++ [sym]) → (∀ c, s.enc.dict.read c = some (q ++ [sym]) → c = n) →
    exec (.encSym sym) s = .next { s with enc := { s.enc with w := some n } }

/-- 40_encoder.md R81, room left: the match's code is emitted, one entry is learned at `nextCode`, every other
entry reads as before, and the symbol starts the next match. -/
def Obligations.EncSymEmitsAndLearns : Prop :=
  ∀ (s : State) (sym : BitVec 8) (w : Nat) (q : SymSeq),
    s.enc.state = .active → s.enc.w = some w → s.enc.dict.wf → s.enc.dict.read w = some q →
    (∀ c, s.enc.dict.read c ≠ some (q ++ [sym])) → s.enc.nextCode < s.param.ncodes →
    ∃ t, exec (.encSym sym) s = .next t ∧
      t = { s with enc := { s.enc with
              out := s.enc.out ++ [codeWord w], dict := t.enc.dict, nextCode := s.enc.nextCode + 1,
              w := some sym.toNat } } ∧
      t.enc.dict.read s.enc.nextCode = some (q ++ [sym]) ∧
      (∀ c, c ≠ s.enc.nextCode → t.enc.dict.read c = s.enc.dict.read c)

/-- 40_encoder.md R81, corner case (c): with the dictionary frozen the code is still emitted and nothing is
learned. -/
def Obligations.EncSymFrozenEmitsOnly : Prop :=
  ∀ (s : State) (sym : BitVec 8) (w : Nat) (q : SymSeq),
    s.enc.state = .active → s.enc.w = some w → s.enc.dict.wf → s.enc.dict.read w = some q →
    (∀ c, s.enc.dict.read c ≠ some (q ++ [sym])) → s.param.ncodes ≤ s.enc.nextCode →
    exec (.encSym sym) s =
      .next { s with enc := { s.enc with out := s.enc.out ++ [codeWord w], w := some sym.toNat } }

/-- 40_encoder.md R82: ENC_END in ACTIVE emits the pending code if there is one, the sentinel and CLOSE(OK). -/
def Obligations.EncEndClosesStream : Prop :=
  ∀ s : State, s.enc.state = .active →
    exec .encEnd s = .next { s with enc := { s.enc with
      out := s.enc.out ++ s.enc.w.toList.map codeWord ++ [0x0100#16, 0xF000#16], w := none, state := .done } }

/-- 20_memory.md R43: in a good state, when ENC_SYM learns, the sequence is stored nowhere and the code holds
nothing. -/
def Obligations.InsertionPrecondition : Prop :=
  ∀ (s t : State) (sym : BitVec 8), s.Inv → exec (.encSym sym) s = .next t →
    t.enc.nextCode ≠ s.enc.nextCode →
    ∃ w q, s.enc.w = some w ∧ s.enc.dict.read w = some q ∧
      s.enc.dict.read s.enc.nextCode = none ∧ (∀ c, s.enc.dict.read c ≠ some (q ++ [sym])) ∧
      t.enc.dict.read s.enc.nextCode = some (q ++ [sym])

/-- 20_memory.md R41, 10_state.md R19: what ENC_SYM and ENC_END leave unchanged whenever they give a next state:
the decoder, PARAM, the host's actions, every entry but the one at `nextCode`, and all words already queued. -/
def Obligations.EncoderFrame : Prop :=
  ∀ (i : Instr) (s t : State), i.unit = .enc → i.isInit = false → exec i s = .next t →
    t.param = s.param ∧ t.host = s.host ∧ t.dec = s.dec ∧ s.enc.out <+: t.enc.out ∧
    (t.enc.nextCode = s.enc.nextCode ∨ (s.enc.nextCode < s.param.ncodes ∧ t.enc.nextCode = s.enc.nextCode + 1)) ∧
    (t.enc.nextCode = s.enc.nextCode → t.enc.dict = s.enc.dict) ∧
    (∀ c, c ≠ s.enc.nextCode → t.enc.dict.read c = s.enc.dict.read c) ∧
    (i = .encEnd → t.enc.dict = s.enc.dict ∧ t.enc.nextCode = s.enc.nextCode) ∧
    (s.enc.state = .active → t.enc.err = s.enc.err)

/-! ## Decoder commands -/

/-- 41_decoder.md R88: DEC_INIT in every state, with its whole next state and its STATUS. -/
def Obligations.DecInitStartsStream : Prop :=
  ∀ s : State,
    ∃ t, exec .decInit s = .next t ∧
      t = { s with dec := { state := .active, err := .ok, out := s.dec.toUnitCore.queueAtInit,
                            table := t.dec.table, highestCode := 257, current := none } } ∧
      (∀ c : Symbol, t.dec.table.read c.toNat = some [c]) ∧ t.dec.table.read 256 = some [] ∧
      (∀ c, 257 ≤ c → t.dec.table.read c = none) ∧
      t.decStatus = 0x01010001#32

/-- 41_decoder.md R89, the sentinel, which is tested before everything else: CLOSE(OK) and no symbol. -/
def Obligations.DecCodeSentinelEndsStream : Prop :=
  ∀ s : State, s.dec.state = .active →
    exec (.decCode 256#12) s =
      .next { s with dec := { s.dec with out := s.dec.out ++ [0xF000#16], current := none, state := .done } }

/-- 41_decoder.md R89, the first codeword of a stream, a literal: its entry is emitted and becomes current. -/
def Obligations.DecCodeFirstCodeword : Prop :=
  ∀ (s : State) (code : BitVec 12) (q : SymSeq),
    s.dec.state = .active → s.dec.current = none → code.toNat < 256 → s.dec.table.read code.toNat = some q →
    exec (.decCode code) s =
      .next { s with dec := { s.dec with out := s.dec.out ++ q.map symWord, current := some q } }

/-- 41_decoder.md R89, KNOWN: the entry is emitted; `current ++ [next[0]]` is learned at `highestCode` while there
is room, and every other entry reads as before. -/
def Obligations.DecCodeKnownCodeword : Prop :=
  ∀ (s : State) (code : BitVec 12) (cur q : SymSeq) (x : Symbol),
    s.dec.state = .active → s.dec.current = some cur → s.dec.table.wf → code.toNat ≠ 256 →
    code.toNat < s.param.ncodes → code.toNat < s.dec.highestCode → s.dec.table.read code.toNat = some (x :: q) →
    ∃ t, exec (.decCode code) s = .next t ∧
      t = { s with dec := { s.dec with
              out := s.dec.out ++ (x :: q).map symWord, table := t.dec.table,
              highestCode := if s.dec.highestCode < s.param.ncodes then s.dec.highestCode + 1
                             else s.dec.highestCode,
              current := some (x :: q) } } ∧
      (s.dec.highestCode < s.param.ncodes → t.dec.table.read s.dec.highestCode = some (cur ++ [x])) ∧
      (∀ c, (c ≠ s.dec.highestCode ∨ s.param.ncodes ≤ s.dec.highestCode) →
        t.dec.table.read c = s.dec.table.read c)

/-- 41_decoder.md R89, SELF: `current ++ [current[0]]` is emitted and is the entry learned (corner case (d)). -/
def Obligations.DecCodeSelfCodeword : Prop :=
  ∀ (s : State) (code : BitVec 12) (cur : SymSeq) (x : Symbol),
    s.dec.state = .active → s.dec.current = some (x :: cur) → s.dec.table.wf → code.toNat ≠ 256 →
    code.toNat < s.param.ncodes → code.toNat = s.dec.highestCode →
    ∃ t, exec (.decCode code) s = .next t ∧
      t = { s with dec := { s.dec with
              out := s.dec.out ++ (x :: cur ++ [x]).map symWord, table := t.dec.table,
              highestCode := s.dec.highestCode + 1, current := some (x :: cur ++ [x]) } } ∧
      t.dec.table.read s.dec.highestCode = some (x :: cur ++ [x]) ∧
      (∀ c, c ≠ s.dec.highestCode → t.dec.table.read c = s.dec.table.read c)

/-- 60_exceptions.md R98, R99, R101: the three corrupt codewords, tested in the order of 41_decoder.md R89.
CORRUPT_RANGE needs W < 12. -/
def Obligations.CorruptCodewordsRaise : Prop :=
  ∀ (s : State) (code : BitVec 12), s.dec.state = .active → code.toNat ≠ 256 →
    (s.param.ncodes ≤ code.toNat → exec (.decCode code) s = .next (s.streamError .dec .corruptRange)) ∧
    (s.param = .twelve → code.toNat < s.param.ncodes) ∧
    (code.toNat < s.param.ncodes → s.dec.current = none → 257 ≤ code.toNat →
      exec (.decCode code) s = .next (s.streamError .dec .corruptFirst)) ∧
    (∀ cur, code.toNat < s.param.ncodes → s.dec.current = some cur → s.dec.highestCode < code.toNat →
      exec (.decCode code) s = .next (s.streamError .dec .corruptHigh))

/-- 60_exceptions.md R100: DEC_EOS in ACTIVE raises CORRUPT_TRUNCATED, and only the code is recorded. -/
def Obligations.DecEosInActiveIsTruncation : Prop :=
  ∀ s : State, s.dec.state = .active →
    exec .decEos s = .next { s with dec := { s.dec with
      out := s.dec.out ++ [0xF005#16], err := .corruptTruncated, state := .error, current := none } }

/-- 41_decoder.md R93: a DEC_CODE that raises an error emits its CLOSE word alone and leaves the table. -/
def Obligations.DecErrorEmitsOnlyItsCloseWord : Prop :=
  ∀ (s t : State) (code : BitVec 12), s.dec.state = .active → exec (.decCode code) s = .next t →
    t.dec.state = .error →
    t.dec.out = s.dec.out ++ [closeWord t.dec.err] ∧ t.dec.table = s.dec.table ∧
      t.dec.highestCode = s.dec.highestCode ∧
      (t.dec.err = .corruptRange ∨ t.dec.err = .corruptFirst ∨ t.dec.err = .corruptHigh)

/-- 20_memory.md R46, 10_state.md R23: what DEC_CODE and DEC_EOS leave unchanged whenever they give a next state. -/
def Obligations.DecoderFrame : Prop :=
  ∀ (i : Instr) (s t : State), i.unit = .dec → i.isInit = false → exec i s = .next t →
    t.param = s.param ∧ t.host = s.host ∧ t.enc = s.enc ∧ s.dec.out <+: t.dec.out ∧
    (t.dec.highestCode = s.dec.highestCode ∨
      (s.dec.highestCode < s.param.ncodes ∧ t.dec.highestCode = s.dec.highestCode + 1)) ∧
    (t.dec.highestCode = s.dec.highestCode → t.dec.table = s.dec.table) ∧
    (∀ c, c ≠ s.dec.highestCode → t.dec.table.read c = s.dec.table.read c) ∧
    (i = .decEos → t.dec.table = s.dec.table ∧ t.dec.highestCode = s.dec.highestCode) ∧
    (t.dec.state ≠ .error → t.dec.err = s.dec.err)

/-! ## Registers and output words -/

/-- 10_state.md R30, R31: the fields of both STATUS registers, bit by bit, and PEND. STATE is written out with the
numbers of 10_state.md R17 and ERR with those of 60_exceptions.md R95. -/
def Obligations.StatusRegisterLayout : Prop :=
  ∀ s : State,
    ((s.enc.state, s.encStatus.extractLsb' 0 3) ∈
        [(UnitState.idle, 0#3), (.active, 1#3), (.done, 2#3), (.error, 3#3)] ∧
      (s.encStatus.getLsbD 3 = true ↔ s.enc.w ≠ none) ∧
      (s.enc.err, s.encStatus.extractLsb' 4 4) ∈
        [(Status.ok, 0#4), (.illegalCmd, 1#4), (.sequence, 2#4), (.corruptHigh, 3#4), (.corruptFirst, 4#4),
          (.corruptTruncated, 5#4), (.corruptRange, 6#4), (.aborted, 7#4)] ∧
      (s.encStatus.getLsbD 8 = true ↔ s.enc.nextCode = s.param.ncodes) ∧
      s.encStatus.extractLsb' 9 7 = 0#7 ∧
      s.encStatus.extractLsb' 16 13 = BitVec.ofNat 13 s.enc.nextCode ∧
      s.encStatus.extractLsb' 29 3 = 0#3) ∧
    ((s.dec.state, s.decStatus.extractLsb' 0 3) ∈
        [(UnitState.idle, 0#3), (.active, 1#3), (.done, 2#3), (.error, 3#3)] ∧
      (s.decStatus.getLsbD 3 = true ↔ s.dec.current ≠ none) ∧
      (s.dec.err, s.decStatus.extractLsb' 4 4) ∈
        [(Status.ok, 0#4), (.illegalCmd, 1#4), (.sequence, 2#4), (.corruptHigh, 3#4), (.corruptFirst, 4#4),
          (.corruptTruncated, 5#4), (.corruptRange, 6#4), (.aborted, 7#4)] ∧
      (s.decStatus.getLsbD 8 = true ↔ s.dec.highestCode = s.param.ncodes) ∧
      s.decStatus.extractLsb' 9 7 = 0#7 ∧
      s.decStatus.extractLsb' 16 13 = BitVec.ofNat 13 s.dec.highestCode ∧
      s.decStatus.extractLsb' 29 3 = 0#3)

/-- 30_encoding.md R70, R71: the fields of the output words, for every codeword of the code space, every symbol and
every status code (60_exceptions.md R95), and the tags by which the packer tells DATA from CLOSE. -/
def Obligations.OutputWordLayout : Prop :=
  (∀ (W : Width) (c : Nat), c < W.ncodes →
    (codeWord c).extractLsb' 12 4 = 0x0#4 ∧ ((codeWord c).extractLsb' 0 12).toNat = c) ∧
  (∀ x : Symbol, (symWord x).extractLsb' 12 4 = 0x0#4 ∧ (symWord x).extractLsb' 8 4 = 0x0#4 ∧
    (symWord x).extractLsb' 0 8 = x) ∧
  (∀ st : Status, (closeWord st).extractLsb' 12 4 = 0xF#4 ∧ (closeWord st).extractLsb' 4 8 = 0x00#8 ∧
    (st, (closeWord st).extractLsb' 0 4) ∈
      [(Status.ok, 0#4), (.illegalCmd, 1#4), (.sequence, 2#4), (.corruptHigh, 3#4), (.corruptFirst, 4#4),
        (.corruptTruncated, 5#4), (.corruptRange, 6#4), (.aborted, 7#4)]) ∧
  (∀ o : OutWord, (isData o = true ↔ o.extractLsb' 12 4 = 0x0#4) ∧ (isClose o = true ↔ o.extractLsb' 12 4 = 0xF#4))

/-- 20_memory.md R48: the read port's map; an address past 2 reads zero. -/
def Obligations.ReadPortMap : Prop :=
  ∀ s : State, s.readPort 0 = s.encStatus ∧ s.readPort 1 = s.decStatus ∧ s.readPort 2 = s.paramWord ∧
    ∀ addr, 2 < addr → s.readPort addr = 0x00000000#32

/-- 10_state.md R36: PARAM's fields, its value in this hardware, and that no step changes it, reset included. -/
def Obligations.ParamNeverChanges : Prop :=
  State.reset.readPort 2 = 0x0000000C#32 ∧
  (∀ s : State, ((s.readPort 2).extractLsb' 0 5).toNat = s.param.bits ∧ (s.readPort 2).extractLsb' 5 27 = 0#27) ∧
  (∀ s t : State, step s = .next t → t.readPort 2 = s.readPort 2)

/-! ## Rules about the whole machine -/

/-- 20_memory.md R56: a word on one unit leaves the other alone, and words on the two units can be taken in either
order with one result. -/
def Obligations.UnitsAreIndependent : Prop :=
  ∀ (s t u : State) (a b : CmdWord),
    runWord .enc a s = .next t → runWord .dec b s = .next u →
    t.dec = s.dec ∧ u.enc = s.enc ∧
      ∃ v, runWord .dec b t = .next v ∧ runWord .enc a u = .next v ∧ v.enc = t.enc ∧ v.dec = u.dec

/-- 30_encoding.md R72, 70_reset_and_hazards.md R131: a word on a unit emits a CLOSE word exactly when it ends the
open stream (the unit leaves ACTIVE, or INIT abandons the stream), at most one, and as its last word; with no
stream open it emits nothing. -/
def Obligations.OneCloseWordEndsEachStream : Prop :=
  ∀ (s t : State) (u : UnitId) (cmd : CmdWord), runWord u cmd s = .next t →
    ∃ ws, (t.unitCore u).out = (s.unitCore u).out ++ ws ∧
      ((s.unitCore u).state ≠ .active → ws = []) ∧
      ((s.unitCore u).state = .active →
        (∀ o ∈ ws.dropLast, isClose o = false) ∧
        ((∃ o, ws.getLast? = some o ∧ isClose o = true) ↔
          ((t.unitCore u).state ≠ .active ∨ cmd = 0x1000#16)))

/-- 70_reset_and_hazards.md R124: how many words a command can emit, from a good state; a DEC_CODE emits symbols or
one CLOSE word, never both. -/
def Obligations.EmissionBounds : Prop :=
  ∀ (s t : State) (i : Instr), s.Inv → exec i s = .next t →
    ∃ ws, (t.unitCore i.unit).out = (s.unitCore i.unit).out ++ ws ∧
      (i.isInit = true → ws.length ≤ 1) ∧
      (∀ sym, i = .encSym sym → ws.length ≤ 1) ∧
      (i = .encEnd → ws.length ≤ 3) ∧
      (i = .decEos → ws.length ≤ 1) ∧
      (∀ code, i = .decCode code →
        (ws.length ≤ s.param.maxSeq ∧ ∀ o ∈ ws, ∃ x, o = symWord x) ∨ ∃ st, ws = [closeWord st])

/-- 00_scope.md R15: from a good state every command word has a next state, with words appended to its unit's
queue. -/
def Obligations.EveryCommandWordHasANextState : Prop :=
  ∀ (s : State) (u : UnitId) (cmd : CmdWord), s.Inv →
    ∃ t ws, runWord u cmd s = .next t ∧ (t.unitCore u).out = (s.unitCore u).out ++ ws

/-- The good state of `State.Inv` holds after reset (10_state.md R38). -/
def Obligations.ResetIsGood : Prop := State.reset.Inv

/-- 10_state.md R25, R26 with the memories' canonical form, the status code rule and the queues' words: every step
from a good state, whatever the host does, gives a good state. The canonical form is the model's own (log 19). -/
def Obligations.EveryStepKeepsGood : Prop :=
  ∀ s t : State, s.Inv → step s = .next t → t.Inv

/-- 10_state.md R38, 20_memory.md R61: the dictionary's contents outside ACTIVE cannot be told from outside. States
that differ in nothing else look alike at the port and the queues, and step to states that look alike, so nothing
rests on the contents chosen at reset (log 3) or kept in ERROR (log 4). -/
def Obligations.ClosedDictionariesAreUnobservable : Prop :=
  ∀ s s' : State, s.Alike s' →
    (∀ addr, s.readPort addr = s'.readPort addr) ∧ (∀ u, (s.unitCore u).out = (s'.unitCore u).out) ∧
    ((∃ t t', step s = .next t ∧ step s' = .next t' ∧ t.Alike t') ∨
      (∃ r, step s = .fault r ∧ step s' = .fault r))

/-- 40_encoder.md R80, 41_decoder.md R88: the loops of the spec, run over any dictionary in canonical form, build
exactly the dictionary the model's INIT installs. -/
def Obligations.InitLoopsBuildFreshDictionaries : Prop :=
  ∀ (W : Width) (m : Memory), m.wf → m.within W.ncodes →
    encInitLoops W m = freshDict ∧ decInitLoops W m = freshTable

/-- 20_memory.md R55: the words of a list of commands, sent one after another, are run one a step in their order,
whatever the host does next. -/
def Obligations.StepsRunTheCommandsInOrder : Prop :=
  ∀ (is : List Instr) (s t : State) (rest : List HostAction), runInstrs is s = .next t →
    Sys2Proof.core.run is.length { s with host := sendAll (assembleInstrs is) ++ rest } =
      .next { t with host := rest }

/-! ## Whole streams -/

/-- 40_encoder.md R83: the streaming encoder emits the codewords of the source's algorithm and ends with its
dictionary and counter, for every input, every W and every start state. `compress` is the model's reading of the
quoted sentences of §4.2 (log 18). -/
def Obligations.EncoderRunsTheSourceAlgorithm : Prop :=
  ∀ (s : State) (text : SymSeq),
    ∃ t, runInstrs (encStream text) s = .next t ∧
      t.enc.out = s.enc.toUnitCore.queueAtInit ++ (compress s.param text).codes.map codeWord ++ [closeWord .ok] ∧
      t.enc.dict = (compress s.param text).dict ∧ t.enc.nextCode = (compress s.param text).nextCode ∧
      t.enc.state = .done ∧ t.enc.err = .ok

/-- 40_encoder.md R84: every payload is in the code space, and 256 is the last one and no other. -/
def Obligations.SentinelIsTheLastCodewordOnly : Prop :=
  ∀ (s t : State) (text : SymSeq), runInstrs (encStream text) s = .next t →
    ∃ ds : List Nat, t.enc.out = s.enc.toUnitCore.queueAtInit ++ ds.map codeWord ++ [0x0100#16, 0xF000#16] ∧
      ∀ d ∈ ds, d < s.param.ncodes ∧ d ≠ 256

/-- 40_encoder.md R85: a stream with `k` data codewords learns `min(max(k - 1, 0), 2^W - 257)` entries, and the
dictionary never holds more than `2^W`. -/
def Obligations.EncoderGrowth : Prop :=
  ∀ (s t : State) (text : SymSeq) (ds : List Nat), runInstrs (encStream text) s = .next t →
    t.enc.out = s.enc.toUnitCore.queueAtInit ++ ds.map codeWord ++ [0x0100#16, 0xF000#16] →
    t.enc.nextCode = 257 + min (ds.length - 1) (s.param.ncodes - 257) ∧
      t.enc.dict.length ≤ s.param.ncodes

/-- 40_encoder.md R87: how many data codewords a stream has, and that their sequences, each of 1 to MAX_SEQ
symbols, concatenate to the input. -/
def Obligations.DataCodewordsSpellTheInput : Prop :=
  ∀ (s t : State) (text : SymSeq), runInstrs (encStream text) s = .next t →
    ∃ (ds : List Nat) (qs : List SymSeq),
      t.enc.out = s.enc.toUnitCore.queueAtInit ++ ds.map codeWord ++ [0x0100#16, 0xF000#16] ∧
      ds.map t.enc.dict.read = qs.map some ∧ qs.flatten = text ∧
      (∀ q ∈ qs, 1 ≤ q.length ∧ q.length ≤ s.param.maxSeq) ∧
      (text = [] → ds = []) ∧ (text ≠ [] → 1 ≤ ds.length ∧ ds.length ≤ text.length)

/-- 41_decoder.md R91: the decoder, given the encoder's codewords and DEC_EOS, emits the input and CLOSE(OK), ends
in DONE without an error, for every input, the empty one too, and every W. The last two clauses are 10_state.md
R27's: both ends finish with one counter and the same learned entries. -/
def Obligations.RoundTrip : Prop :=
  ∀ (s : State) (text : SymSeq),
    ∃ t ws u, runInstrs (encStream text) s = .next t ∧ t.enc.out = s.enc.toUnitCore.queueAtInit ++ ws ∧
      runInstrs (decStream (dataCodes ws)) t = .next u ∧
      u.dec.out = s.dec.toUnitCore.queueAtInit ++ text.map symWord ++ [0xF000#16] ∧
      u.dec.state = .done ∧ u.dec.err = .ok ∧ u.dec.highestCode = u.enc.nextCode ∧
      (∀ c, 257 ≤ c → u.dec.table.read c = u.enc.dict.read c)

/-- 10_state.md R27: after the decoder has decoded the `k`-th data codeword its counter is `min(256 + k, 2^W)` and
its learned entries are the encoder's. -/
def Obligations.DictionariesStaySynchronised : Prop :=
  ∀ (s t : State) (text : SymSeq) (ds : List Nat) (k : Nat), runInstrs (encStream text) s = .next t →
    t.enc.out = s.enc.toUnitCore.queueAtInit ++ ds.map codeWord ++ [0x0100#16, 0xF000#16] →
    1 ≤ k → k ≤ ds.length →
    ∃ u, runInstrs (.decInit :: decCodes (ds.take k)) t = .next u ∧ u.dec.state = .active ∧
      u.dec.highestCode = min (256 + k) s.param.ncodes ∧
      (∀ c, 257 ≤ c → c < u.dec.highestCode → u.dec.table.read c = t.enc.dict.read c)

/-- 41_decoder.md R94: a stream that decodes `k` codewords other than the sentinel without error learns
`min(max(k - 1, 0), 2^W - 257)` entries. -/
def Obligations.DecoderGrowth : Prop :=
  ∀ (s t : State) (codes : List (BitVec 12)), (∀ c ∈ codes, c ≠ 256#12) →
    runInstrs (.decInit :: codes.map .decCode) s = .next t → t.dec.state = .active →
    t.dec.highestCode = 257 + min (codes.length - 1) (s.param.ncodes - 257)

/-- 41_decoder.md R92: an input whose first three symbols are one symbol makes its second codeword 257, which the
decoder meets while `highestCode` is 257, and decodes to that symbol twice. -/
def Obligations.TripleStartIsSelfReferential : Prop :=
  ∀ (s t : State) (a : Symbol) (text : SymSeq), runInstrs (encStream (a :: a :: a :: text)) s = .next t →
    ∃ ws u v, t.enc.out = s.enc.toUnitCore.queueAtInit ++ codeWord a.toNat :: codeWord 257 :: ws ∧
      runInstrs (.decInit :: decCodes [a.toNat]) t = .next u ∧ u.dec.highestCode = 257 ∧
      exec (.decCode 257#12) u = .next v ∧ v.dec.out = u.dec.out ++ [symWord a, symWord a] ∧
      v.dec.table.read 257 = some [a, a]

/-! ## Wire format -/

/-- 30_encoding.md R74, R75: stream bit `jW + t` is bit `W-1-t` of codeword `j`, stream bit `p` is bit
`7 - (p mod 8)` of byte `p div 8`, the bits after the last codeword are zero, and a stream of `k` codewords is
`ceil(kW / 8)` bytes. -/
def Obligations.WireBitOrder : Prop :=
  ∀ (W : Width) (codes : List Nat),
    (packCodes W codes).length = (codes.length * W.bits + 7) / 8 ∧
    (∀ (j t c : Nat), codes[j]? = some c → t < W.bits →
      ∃ b, (packCodes W codes)[(j * W.bits + t) / 8]? = some b ∧
        b.getLsbD (7 - (j * W.bits + t) % 8) = c.testBit (W.bits - 1 - t)) ∧
    (∀ (p : Nat) (b : WireByte), codes.length * W.bits ≤ p → (packCodes W codes)[p / 8]? = some b →
      b.getLsbD (7 - p % 8) = false)

/-- 30_encoding.md R76: the reader gets back exactly the codewords packed, and then has fewer than W bits left. The
functions are the model's form of packer and reader (log 12). -/
def Obligations.UnpackOfPack : Prop :=
  ∀ (W : Width) (codes : List Nat), (∀ c ∈ codes, c < W.ncodes) → unpackCodes W (packCodes W codes) = codes

/-- 41_decoder.md R91 over the wire (30_encoding.md R76; 60_exceptions.md R114, R115): the bytes the packer makes of
a stream, delivered by the reader, are expanded to the input's bytes. The packer, the reader and `writtenSymbols` are
the model's functions of the collaborators' contract (log 12). -/
def Obligations.WireRoundTrip : Prop :=
  ∀ (s : State) (text : SymSeq),
    ∃ t ws u vs, runInstrs (encStream text) s = .next t ∧ t.enc.out = s.enc.toUnitCore.queueAtInit ++ ws ∧
      runInstrs (.decInit :: deliver s.param (packOutput s.param ws)) t = .next u ∧
      u.dec.out = s.dec.toUnitCore.queueAtInit ++ vs ∧ writtenSymbols vs = text ∧
      u.dec.state = .done ∧ u.dec.err = .ok
end

