-- ==== Sys2Proof/Laws/Config.lean ====
section
/-! SUPPORT. The constants of 00_scope.md R9 as numbers, and the ranges of the width's constants. -/

namespace Sys2Proof

@[simp] theorem nsym_eq : nsym = 256 := rfl
@[simp] theorem sentinel_eq : sentinel = 256 := rfl
@[simp] theorem firstLearned_eq : firstLearned = 257 := rfl

/-- 00_scope.md R8: W is 9 to 12. -/
theorem Width.bits_range (W : Width) : 9 ≤ W.bits ∧ W.bits ≤ 12 := by cases W <;> decide

/-- 00_scope.md R9: the code space has 512 to 4096 codes. -/
theorem Width.ncodes_range (W : Width) : 512 ≤ W.ncodes ∧ W.ncodes ≤ 4096 := by cases W <;> decide

/-- 20_memory.md R40: the longest sequence and the code space. -/
theorem Width.maxSeq_eq (W : Width) : W.maxSeq = W.ncodes - 256 := rfl

end Sys2Proof
end

