-- ==== Sys2Proof/Laws/Memory.lean ====
section
/-! SUPPORT. The laws of the dictionary memories: read after write, writes keep the canonical form, `Lookup` finds
exactly what is stored, and what a fresh dictionary holds. -/

namespace Sys2Proof.Machine

theorem Memory.read_insert_same (m : Memory) (c : Nat) (v : SymSeq) : (m.insert c v).read c = some v := by
  induction m with
  | nil => simp [Memory.insert, Memory.read]
  | cons cell m ih =>
    obtain ⟨k, x⟩ := cell
    unfold Memory.insert
    split_ifs with h1 h2
    · simp [Memory.read]
    · simp [Memory.read]
    · have : k ≠ c := fun h => h2 h.symm
      simp [Memory.read, this, ih]

theorem Memory.read_insert_other (m : Memory) {c c' : Nat} (v : SymSeq) (h : c' ≠ c) :
    (m.insert c v).read c' = m.read c' := by
  induction m with
  | nil => simp [Memory.insert, Memory.read, h.symm]
  | cons cell m ih =>
    obtain ⟨k, x⟩ := cell
    unfold Memory.insert
    split_ifs with h1 h2
    · simp [Memory.read, h.symm]
    · subst h2; simp [Memory.read, h.symm]
    · simp [Memory.read, ih]

/-- `DictRead` after `DictWrite` of a sequence (20_memory.md R41). -/
@[simp] theorem Memory.read_write_same (m : Memory) (c : Nat) (v : SymSeq) :
    (m.write c (some v)).read c = some v := m.read_insert_same c v

/-- A write of a sequence leaves every other entry (20_memory.md R41). -/
theorem Memory.read_write_other (m : Memory) {c c' : Nat} (v : SymSeq) (h : c' ≠ c) :
    (m.write c (some v)).read c' = m.read c' := m.read_insert_other v h

theorem Memory.mem_insert {m : Memory} {c : Nat} {v : SymSeq} {cell : Nat × SymSeq}
    (h : cell ∈ m.insert c v) : cell = (c, v) ∨ cell ∈ m := by
  induction m with
  | nil => simpa [Memory.insert] using h
  | cons first m ih =>
    obtain ⟨k, x⟩ := first
    unfold Memory.insert at h
    split_ifs at h with h1 h2
    · simpa using h
    · rcases List.mem_cons.1 h with h | h
      · exact .inl h
      · exact .inr (List.mem_cons_of_mem _ h)
    · rcases List.mem_cons.1 h with h | h
      · exact .inr (h ▸ List.mem_cons_self)
      · exact (ih h).imp_right (List.mem_cons_of_mem _)

theorem Memory.mem_erase {m : Memory} {c : Nat} {cell : Nat × SymSeq} (h : cell ∈ m.erase c) : cell ∈ m := by
  induction m with
  | nil => simp [Memory.erase] at h
  | cons first m ih =>
    obtain ⟨k, x⟩ := first
    unfold Memory.erase at h
    split_ifs at h with h1
    · exact List.mem_cons_of_mem _ h
    · rcases List.mem_cons.1 h with h | h
      · exact h ▸ List.mem_cons_self
      · exact List.mem_cons_of_mem _ (ih h)

theorem Memory.wf_insert {m : Memory} (h : m.wf) (c : Nat) (v : SymSeq) : (m.insert c v).wf := by
  induction m with
  | nil => simp [Memory.insert, Memory.wf]
  | cons cell m ih =>
    obtain ⟨k, x⟩ := cell
    obtain ⟨hk, hm⟩ := List.pairwise_cons.1 h
    unfold Memory.insert
    split_ifs with h1 h2
    · refine List.pairwise_cons.2 ⟨fun b hb => ?_, h⟩
      rcases List.mem_cons.1 hb with rfl | hb
      · exact h1
      · exact h1.trans (hk b hb)
    · subst h2; exact List.pairwise_cons.2 ⟨hk, hm⟩
    · refine List.pairwise_cons.2 ⟨fun b hb => ?_, ih hm⟩
      rcases Memory.mem_insert hb with rfl | hb
      · exact lt_of_le_of_ne (Nat.le_of_not_lt h1) (Ne.symm h2)
      · exact hk b hb

theorem Memory.wf_erase {m : Memory} (h : m.wf) (c : Nat) : (m.erase c).wf := by
  induction m with
  | nil => simp [Memory.erase, Memory.wf]
  | cons cell m ih =>
    obtain ⟨k, x⟩ := cell
    obtain ⟨hk, hm⟩ := List.pairwise_cons.1 h
    unfold Memory.erase
    split_ifs with h1
    · exact hm
    · exact List.pairwise_cons.2 ⟨fun b hb => hk b (Memory.mem_erase hb), ih hm⟩

/-- Every write keeps the canonical form. -/
theorem Memory.wf_write {m : Memory} (h : m.wf) (c : Nat) (v : Option SymSeq) : (m.write c v).wf := by
  cases v with
  | none => exact Memory.wf_erase h c
  | some v => exact Memory.wf_insert h c v

/-- A write in the code space keeps the memory in the code space. -/
theorem Memory.within_write {m : Memory} {n c : Nat} (h : m.within n) (hc : c < n) (v : Option SymSeq) :
    (m.write c v).within n := by
  intro cell hcell
  cases v with
  | none => exact h cell (Memory.mem_erase hcell)
  | some v =>
    rcases Memory.mem_insert hcell with rfl | hcell
    · exact hc
    · exact h cell hcell

/-- In canonical form, being listed is being read. -/
theorem Memory.mem_iff_read {m : Memory} (h : m.wf) (c : Nat) (v : SymSeq) : (c, v) ∈ m ↔ m.read c = some v := by
  induction m with
  | nil => simp [Memory.read]
  | cons cell m ih =>
    obtain ⟨k, x⟩ := cell
    obtain ⟨hk, hm⟩ := List.pairwise_cons.1 h
    by_cases hkc : k = c
    · subst hkc
      have : (k, v) ∉ m := fun hmem => absurd (hk _ hmem) (lt_irrefl _)
      simp [Memory.read, this, eq_comm]
    · simp [Memory.read, hkc, Ne.symm hkc, ih hm]

/-- After `DictWrite(c, ⊥)` entry `c` is `⊥`, in canonical form. -/
theorem Memory.read_erase_same {m : Memory} (h : m.wf) (c : Nat) : (m.write c none).read c = none := by
  show (m.erase c).read c = none
  induction m with
  | nil => simp [Memory.erase, Memory.read]
  | cons cell m ih =>
    obtain ⟨k, x⟩ := cell
    obtain ⟨hk, hm⟩ := List.pairwise_cons.1 h
    unfold Memory.erase
    split_ifs with h1
    · subst h1
      cases hr : Memory.read m k with
      | none => rfl
      | some v => exact absurd (hk _ ((Memory.mem_iff_read hm k v).2 hr)) (lt_irrefl _)
    · simp [Memory.read, h1, ih hm]

/-- `DictWrite(c, ⊥)` leaves every other entry. -/
theorem Memory.read_erase_other (m : Memory) {c c' : Nat} (h : c' ≠ c) : (m.write c none).read c' = m.read c' := by
  show (m.erase c).read c' = m.read c'
  induction m with
  | nil => simp [Memory.erase]
  | cons cell m ih =>
    obtain ⟨k, x⟩ := cell
    unfold Memory.erase
    split_ifs with h1
    · subst h1; simp [Memory.read, h.symm]
    · simp [Memory.read, ih]

theorem Memory.mem_of_lookup {m : Memory} {q : SymSeq} {c : Nat} (h : m.lookup q = some c) : (c, q) ∈ m := by
  induction m with
  | nil => simp [Memory.lookup] at h
  | cons cell m ih =>
    obtain ⟨k, x⟩ := cell
    unfold Memory.lookup at h
    split_ifs at h with h1
    · cases h; subst h1; exact List.mem_cons_self
    · exact List.mem_cons_of_mem _ (ih h)

/-- What `Lookup` finds is stored there (20_memory.md R41). -/
theorem Memory.read_of_lookup {m : Memory} (h : m.wf) {q : SymSeq} {c : Nat} (hl : m.lookup q = some c) :
    m.read c = some q := (Memory.mem_iff_read h c q).1 (Memory.mem_of_lookup hl)

/-- `Lookup` answers `⊥` exactly when no entry holds the sequence (20_memory.md R41). -/
theorem Memory.lookup_eq_none_iff {m : Memory} (h : m.wf) (q : SymSeq) :
    m.lookup q = none ↔ ∀ c, m.read c ≠ some q := by
  constructor
  · intro hl c hc
    have hmem := (Memory.mem_iff_read h c q).2 hc
    clear hc h
    induction m with
    | nil => simp at hmem
    | cons cell m ih =>
      obtain ⟨k, x⟩ := cell
      unfold Memory.lookup at hl
      split_ifs at hl with h1
      rcases List.mem_cons.1 hmem with he | hmem
      · exact h1 (Prod.ext_iff.1 he).2.symm
      · exact ih hl hmem
  · intro hall
    cases hl : m.lookup q with
    | none => rfl
    | some c => exact absurd (Memory.read_of_lookup h hl) (hall c)

/-- `Lookup` answers the one code that holds the sequence (20_memory.md R41). -/
theorem Memory.lookup_eq_some {m : Memory} (h : m.wf) {q : SymSeq} {n : Nat} (hn : m.read n = some q)
    (hu : ∀ c, m.read c = some q → c = n) : m.lookup q = some n := by
  cases hl : m.lookup q with
  | none => exact absurd hn ((Memory.lookup_eq_none_iff h q).1 hl n)
  | some c => rw [hu c (Memory.read_of_lookup h hl)]

/-- An entry of a memory in the code space has a code in it. -/
theorem Memory.lt_of_read {m : Memory} {n c : Nat} {q : SymSeq} (h : m.wf) (hw : m.within n)
    (hr : m.read c = some q) : c < n := hw _ ((Memory.mem_iff_read h c q).2 hr)

/-- Two memories in canonical form that read alike everywhere are equal. -/
theorem Memory.ext_read {m m' : Memory} (h : m.wf) (h' : m'.wf) (hr : ∀ c, m.read c = m'.read c) : m = m' := by
  induction m generalizing m' with
  | nil =>
    cases m' with
    | nil => rfl
    | cons cell m' => have := hr cell.1; simp [Memory.read] at this
  | cons cell m ih =>
    obtain ⟨k, x⟩ := cell
    obtain ⟨hk, hm⟩ := List.pairwise_cons.1 h
    cases m' with
    | nil => have := hr k; simp [Memory.read] at this
    | cons cell' m' =>
      obtain ⟨k', x'⟩ := cell'
      obtain ⟨hk', hm'⟩ := List.pairwise_cons.1 h'
      have hkk : k = k' := by
        rcases lt_trichotomy k k' with hlt | heq | hgt
        · have h1 : Memory.read ((k', x') :: m') k = some x := by rw [← hr k]; simp [Memory.read]
          rcases List.mem_cons.1 ((Memory.mem_iff_read h' k x).2 h1) with he | hmem
          · exact (Prod.ext_iff.1 he).1
          · exact absurd (hk' _ hmem) (by simpa using Nat.not_lt.2 hlt.le)
        · exact heq
        · have h1 : Memory.read ((k, x) :: m) k' = some x' := by rw [hr k']; simp [Memory.read]
          rcases List.mem_cons.1 ((Memory.mem_iff_read h k' x').2 h1) with he | hmem
          · exact (Prod.ext_iff.1 he).1.symm
          · exact absurd (hk _ hmem) (by simpa using Nat.not_lt.2 hgt.le)
      subst hkk
      have hx : x = x' := by have := hr k; simpa [Memory.read] using this
      subst hx
      have : m = m' := by
        refine ih hm hm' fun c => ?_
        by_cases hc : k = c
        · subst hc
          have none_of : ∀ {l : Memory}, l.wf → (∀ b ∈ l, k < b.1) → l.read k = none := by
            intro l hl hb
            cases hr' : l.read k with
            | none => rfl
            | some v => exact absurd (hb _ ((Memory.mem_iff_read hl k v).2 hr')) (lt_irrefl _)
          rw [none_of hm hk, none_of hm' hk']
        · have := hr c; simpa [Memory.read, hc] using this
      rw [this]

/-! ## Fresh dictionaries -/

theorem literalEntries_wf : literalEntries.wf := by
  unfold literalEntries Memory.wf
  rw [List.pairwise_map]
  exact List.pairwise_lt_range

theorem mem_literalEntries (c : Nat) (q : SymSeq) :
    (c, q) ∈ literalEntries ↔ c < 256 ∧ q = [BitVec.ofNat 8 c] := by
  constructor
  · intro h
    obtain ⟨s, hs, he⟩ := List.mem_map.1 h
    cases he
    exact ⟨List.mem_range.1 hs, rfl⟩
  · rintro ⟨hc, rfl⟩
    exact List.mem_map.2 ⟨c, List.mem_range.2 hc, rfl⟩

theorem freshDict_wf : freshDict.wf := literalEntries_wf

theorem freshTable_wf : freshTable.wf := by
  refine List.pairwise_append.2 ⟨literalEntries_wf, by simp, fun a ha b hb => ?_⟩
  obtain ⟨c, q⟩ := a
  have := ((mem_literalEntries c q).1 ha).1
  simp at hb
  subst hb
  exact this

theorem mem_freshTable (c : Nat) (q : SymSeq) :
    (c, q) ∈ freshTable ↔ (c < 256 ∧ q = [BitVec.ofNat 8 c]) ∨ (c = 256 ∧ q = []) := by
  rw [freshTable, List.mem_append, mem_literalEntries]
  simp

/-- A fresh dictionary holds the literals (40_encoder.md R80). -/
theorem freshDict_literal {c : Nat} (h : c < 256) : freshDict.read c = some [BitVec.ofNat 8 c] :=
  (Memory.mem_iff_read freshDict_wf c _).1 ((mem_literalEntries c _).2 ⟨h, rfl⟩)

/-- A fresh dictionary holds nothing else (40_encoder.md R80). -/
theorem freshDict_none {c : Nat} (h : 256 ≤ c) : freshDict.read c = none := by
  cases hr : freshDict.read c with
  | none => rfl
  | some q => exact absurd ((mem_literalEntries c q).1 ((Memory.mem_iff_read freshDict_wf c q).2 hr)).1 (by omega)

/-- A fresh table holds the literals (41_decoder.md R88). -/
theorem freshTable_literal {c : Nat} (h : c < 256) : freshTable.read c = some [BitVec.ofNat 8 c] :=
  (Memory.mem_iff_read freshTable_wf c _).1 ((mem_freshTable c _).2 (.inl ⟨h, rfl⟩))

/-- A fresh table holds the empty placeholder at 256 (41_decoder.md R88). -/
theorem freshTable_sentinel : freshTable.read 256 = some [] :=
  (Memory.mem_iff_read freshTable_wf 256 _).1 ((mem_freshTable 256 _).2 (.inr ⟨rfl, rfl⟩))

/-- A fresh table holds nothing else (41_decoder.md R88). -/
theorem freshTable_none {c : Nat} (h : 257 ≤ c) : freshTable.read c = none := by
  cases hr : freshTable.read c with
  | none => rfl
  | some q =>
    rcases (mem_freshTable c q).1 ((Memory.mem_iff_read freshTable_wf c q).2 hr) with h' | h'
    · exact absurd h'.1 (by omega)
    · exact absurd h'.1 (by omega)

end Sys2Proof.Machine
end

