-- ==== Sys2Proof/Laws/State.lean ====
section
/-! SUPPORT. One lemma a field for each update of a unit record or of the state, true by rfl. -/

namespace Sys2Proof.Machine

/-! `UnitCore.emit` -/

@[simp] theorem UnitCore.emit_state (p : UnitCore) (o : OutWord) : (p.emit o).state = p.state := rfl
@[simp] theorem UnitCore.emit_err (p : UnitCore) (o : OutWord) : (p.emit o).err = p.err := rfl
@[simp] theorem UnitCore.emit_out (p : UnitCore) (o : OutWord) : (p.emit o).out = p.out ++ [o] := rfl

/-! `EncUnit.emit` -/

@[simp] theorem EncUnit.emit_core (e : EncUnit) (o : OutWord) : (e.emit o).toUnitCore = e.toUnitCore.emit o := rfl
@[simp] theorem EncUnit.emit_dict (e : EncUnit) (o : OutWord) : (e.emit o).dict = e.dict := rfl
@[simp] theorem EncUnit.emit_nextCode (e : EncUnit) (o : OutWord) : (e.emit o).nextCode = e.nextCode := rfl
@[simp] theorem EncUnit.emit_w (e : EncUnit) (o : OutWord) : (e.emit o).w = e.w := rfl

/-! `DecUnit.emit` -/

@[simp] theorem DecUnit.emit_core (d : DecUnit) (o : OutWord) : (d.emit o).toUnitCore = d.toUnitCore.emit o := rfl
@[simp] theorem DecUnit.emit_table (d : DecUnit) (o : OutWord) : (d.emit o).table = d.table := rfl
@[simp] theorem DecUnit.emit_highestCode (d : DecUnit) (o : OutWord) : (d.emit o).highestCode = d.highestCode := rfl
@[simp] theorem DecUnit.emit_current (d : DecUnit) (o : OutWord) : (d.emit o).current = d.current := rfl

/-! `UnitCore.closeIfOpen`, `raiseError`, `openStream` -/

@[simp] theorem UnitCore.closeIfOpen_state (p : UnitCore) (st : Status) : (p.closeIfOpen st).state = p.state := by
  unfold UnitCore.closeIfOpen; split <;> rfl

@[simp] theorem UnitCore.closeIfOpen_err (p : UnitCore) (st : Status) : (p.closeIfOpen st).err = p.err := by
  unfold UnitCore.closeIfOpen; split <;> rfl

@[simp] theorem UnitCore.closeIfOpen_out (p : UnitCore) (st : Status) :
    (p.closeIfOpen st).out = p.out ++ (if p.state = .active then [closeWord st] else []) := by
  unfold UnitCore.closeIfOpen; split <;> simp

@[simp] theorem UnitCore.raiseError_state (p : UnitCore) (code : Status) : (p.raiseError code).state = .error := rfl
@[simp] theorem UnitCore.raiseError_err (p : UnitCore) (code : Status) : (p.raiseError code).err = code := rfl

@[simp] theorem UnitCore.raiseError_out (p : UnitCore) (code : Status) :
    (p.raiseError code).out = p.out ++ (if p.state = .active then [closeWord code] else []) := by
  simp [UnitCore.raiseError]

@[simp] theorem UnitCore.openStream_state (p : UnitCore) : p.openStream.state = .active := rfl
@[simp] theorem UnitCore.openStream_err (p : UnitCore) : p.openStream.err = .ok := rfl

@[simp] theorem UnitCore.openStream_out (p : UnitCore) :
    p.openStream.out = p.out ++ (if p.state = .active then [closeWord .aborted] else []) := by
  simp [UnitCore.openStream]

/-! `streamError` of each unit -/

@[simp] theorem EncUnit.streamError_core (e : EncUnit) (code : Status) :
    (e.streamError code).toUnitCore = e.toUnitCore.raiseError code := rfl
@[simp] theorem EncUnit.streamError_dict (e : EncUnit) (code : Status) : (e.streamError code).dict = e.dict := rfl
@[simp] theorem EncUnit.streamError_nextCode (e : EncUnit) (code : Status) :
    (e.streamError code).nextCode = e.nextCode := rfl
@[simp] theorem EncUnit.streamError_w (e : EncUnit) (code : Status) : (e.streamError code).w = none := rfl

@[simp] theorem DecUnit.streamError_core (d : DecUnit) (code : Status) :
    (d.streamError code).toUnitCore = d.toUnitCore.raiseError code := rfl
@[simp] theorem DecUnit.streamError_table (d : DecUnit) (code : Status) : (d.streamError code).table = d.table := rfl
@[simp] theorem DecUnit.streamError_highestCode (d : DecUnit) (code : Status) :
    (d.streamError code).highestCode = d.highestCode := rfl
@[simp] theorem DecUnit.streamError_current (d : DecUnit) (code : Status) : (d.streamError code).current = none := rfl

/-! `DecUnit.emitSeq` -/

@[simp] theorem DecUnit.emitSeq_state (d : DecUnit) (q : SymSeq) : (d.emitSeq q).state = d.state := by
  induction q generalizing d with
  | nil => rfl
  | cons s q ih => simpa [DecUnit.emitSeq] using ih (d.emit (symWord s))

@[simp] theorem DecUnit.emitSeq_err (d : DecUnit) (q : SymSeq) : (d.emitSeq q).err = d.err := by
  induction q generalizing d with
  | nil => rfl
  | cons s q ih => simpa [DecUnit.emitSeq] using ih (d.emit (symWord s))

/-- `EmitSeq` appends one SYMWORD a symbol, in order, and changes nothing else (00_scope.md R14). -/
theorem DecUnit.emitSeq_eq (d : DecUnit) (q : SymSeq) :
    d.emitSeq q = { d with out := d.out ++ q.map symWord } := by
  induction q generalizing d with
  | nil => simp [DecUnit.emitSeq]
  | cons s q ih => simp [DecUnit.emitSeq, ih, DecUnit.emit, UnitCore.emit]

@[simp] theorem DecUnit.emitSeq_out (d : DecUnit) (q : SymSeq) : (d.emitSeq q).out = d.out ++ q.map symWord := by
  rw [DecUnit.emitSeq_eq]

@[simp] theorem DecUnit.emitSeq_table (d : DecUnit) (q : SymSeq) : (d.emitSeq q).table = d.table := by
  rw [DecUnit.emitSeq_eq]

@[simp] theorem DecUnit.emitSeq_highestCode (d : DecUnit) (q : SymSeq) :
    (d.emitSeq q).highestCode = d.highestCode := by
  rw [DecUnit.emitSeq_eq]

@[simp] theorem DecUnit.emitSeq_current (d : DecUnit) (q : SymSeq) : (d.emitSeq q).current = d.current := by
  rw [DecUnit.emitSeq_eq]

/-! Updates of the whole state -/

@[simp] theorem State.hardReset_param (s : State) : s.hardReset.param = s.param := rfl
@[simp] theorem State.hardReset_enc (s : State) : s.hardReset.enc = EncUnit.reset := rfl
@[simp] theorem State.hardReset_dec (s : State) : s.hardReset.dec = DecUnit.reset := rfl
@[simp] theorem State.hardReset_host (s : State) : s.hardReset.host = s.host := rfl

@[simp] theorem State.takeWord_param (s : State) (u : UnitId) : (s.takeWord u).param = s.param := by cases u <;> rfl
@[simp] theorem State.takeWord_host (s : State) (u : UnitId) : (s.takeWord u).host = s.host := by cases u <;> rfl

@[simp] theorem State.takeWord_out (s : State) (u : UnitId) :
    ((s.takeWord u).unitCore u).out = (s.unitCore u).out.tail := by cases u <;> rfl

@[simp] theorem State.streamError_param (s : State) (u : UnitId) (code : Status) :
    (s.streamError u code).param = s.param := by cases u <;> rfl

@[simp] theorem State.streamError_host (s : State) (u : UnitId) (code : Status) :
    (s.streamError u code).host = s.host := by cases u <;> rfl

@[simp] theorem State.streamError_unitCore (s : State) (u : UnitId) (code : Status) :
    (s.streamError u code).unitCore u = (s.unitCore u).raiseError code := by cases u <;> rfl

@[simp] theorem State.illegalWord_param (s : State) (u : UnitId) : (s.illegalWord u).param = s.param := by
  cases u <;> rfl

@[simp] theorem State.illegalWord_host (s : State) (u : UnitId) : (s.illegalWord u).host = s.host := by
  cases u <;> rfl

@[simp] theorem State.unitCore_enc (s : State) : s.unitCore .enc = s.enc.toUnitCore := rfl
@[simp] theorem State.unitCore_dec (s : State) : s.unitCore .dec = s.dec.toUnitCore := rfl

/-! `init` and `learn` are the meanings' own: their fields are in Laws/Encoder.lean and Laws/Decoder.lean. -/

end Sys2Proof.Machine
end

