-- ==== Sys2Proof/Laws/Ops.lean ====
section
/-! SUPPORT. What each shared operation can do, said once: running a command on one unit, the dispatch ladder, a
word on a unit, a step. -/

namespace Sys2Proof.Machine

/-- A command of the encoder that gives a next state changes ENC only (20_memory.md R56). -/
theorem State.onEnc_next {f : Width → EncUnit → Except Fault EncUnit} {s t : State} :
    s.onEnc f = .next t ↔ ∃ e, f s.param s.enc = .ok e ∧ t = { s with enc := e } := by
  unfold State.onEnc
  cases hf : f s.param s.enc with
  | ok e => simp [eq_comm]
  | error r => simp

/-- A command of the decoder that gives a next state changes DEC only (20_memory.md R56). -/
theorem State.onDec_next {f : Width → DecUnit → Except Fault DecUnit} {s t : State} :
    s.onDec f = .next t ↔ ∃ d, f s.param s.dec = .ok d ∧ t = { s with dec := d } := by
  unfold State.onDec
  cases hf : f s.param s.dec with
  | ok d => simp [eq_comm]
  | error r => simp

theorem State.onEnc_ok {f : Width → EncUnit → Except Fault EncUnit} {s : State} {e : EncUnit}
    (h : f s.param s.enc = .ok e) : s.onEnc f = .next { s with enc := e } := State.onEnc_next.2 ⟨e, h, rfl⟩

theorem State.onDec_ok {f : Width → DecUnit → Except Fault DecUnit} {s : State} {d : DecUnit}
    (h : f s.param s.dec = .ok d) : s.onDec f = .next { s with dec := d } := State.onDec_next.2 ⟨d, h, rfl⟩

/-- The dispatch of a legal command other than INIT on ENC (60_exceptions.md R104), by the unit's state. -/
theorem EncUnit.dispatch_cases (f : EncUnit → Except Fault EncUnit) (e : EncUnit) :
    (e.state = .error ∧ e.dispatch f = .ok e) ∨
    ((e.state = .idle ∨ e.state = .done) ∧ e.dispatch f = .ok (e.streamError .sequence)) ∨
    (e.state = .active ∧ e.dispatch f = f e) := by
  unfold EncUnit.dispatch
  cases h : e.state <;> simp

/-- The dispatch of a legal command other than INIT on DEC (60_exceptions.md R104), by the unit's state. -/
theorem DecUnit.dispatch_cases (f : DecUnit → Except Fault DecUnit) (d : DecUnit) :
    ((d.state = .error ∨ d.state = .done) ∧ d.dispatch f = .ok d) ∨
    (d.state = .idle ∧ d.dispatch f = .ok (d.streamError .sequence)) ∨
    (d.state = .active ∧ d.dispatch f = f d) := by
  unfold DecUnit.dispatch
  cases h : d.state <;> simp

theorem EncUnit.dispatch_active {f : EncUnit → Except Fault EncUnit} {e : EncUnit} (h : e.state = .active) :
    e.dispatch f = f e := by simp [EncUnit.dispatch, h]

theorem DecUnit.dispatch_active {f : DecUnit → Except Fault DecUnit} {d : DecUnit} (h : d.state = .active) :
    d.dispatch f = f d := by simp [DecUnit.dispatch, h]

/-- What a word on a unit can be (60_exceptions.md R104): a command, run, or an illegal word. -/
theorem runWord_cases (u : UnitId) (cmd : CmdWord) (s : State) :
    (∃ i, decode u cmd = .ok i ∧ runWord u cmd s = exec i s) ∨
    (∃ r, decode u cmd = .error r ∧ runWord u cmd s = .next (s.illegalWord u)) := by
  unfold runWord
  cases h : decode u cmd with
  | ok i => exact .inl ⟨i, rfl, rfl⟩
  | error r => exact .inr ⟨r, rfl, rfl⟩

/-- What a step can be: nothing to do, a word on a unit, a word taken, a reset. -/
theorem step_cases (s : State) :
    (s.host = [] ∧ step s = .next s) ∨
    (∃ u cmd rest, s.host = .send u cmd :: rest ∧ step s = runWord u cmd { s with host := rest }) ∨
    (∃ u rest, s.host = .take u :: rest ∧ step s = .next ({ s with host := rest }.takeWord u)) ∨
    (∃ rest, s.host = .hardReset :: rest ∧ step s = .next { s with host := rest }.hardReset) := by
  rcases s with ⟨p, e, d, host⟩
  rcases host with _ | ⟨a, rest⟩
  · exact .inl ⟨rfl, rfl⟩
  · cases a with
    | send u cmd => exact .inr (.inl ⟨u, cmd, rest, rfl, rfl⟩)
    | take u => exact .inr (.inr (.inl ⟨u, rest, rfl, rfl⟩))
    | hardReset => exact .inr (.inr (.inr ⟨rest, rfl, rfl⟩))

/-! The arms of `exec`, as equations. -/

theorem exec_encInit (s : State) : exec .encInit s = s.onEnc fun _ e => .ok e.init := rfl
theorem exec_encSym (sym : BitVec 8) (s : State) :
    exec (.encSym sym) s = s.onEnc fun W e => e.dispatch (EncUnit.takeSymbol sym W) := rfl
theorem exec_encEnd (s : State) : exec .encEnd s = s.onEnc fun _ e => e.dispatch fun e => .ok e.finish := rfl
theorem exec_decInit (s : State) : exec .decInit s = s.onDec fun _ d => .ok d.init := rfl
theorem exec_decCode (code : BitVec 12) (s : State) :
    exec (.decCode code) s = s.onDec fun W d => d.dispatch (DecUnit.takeCode code.toNat W) := rfl
theorem exec_decEos (s : State) :
    exec .decEos s = s.onDec fun _ d => d.dispatch fun d => .ok (d.streamError .corruptTruncated) := rfl

theorem State.onEnc_ne_refused (f : Width → EncUnit → Except Fault EncUnit) (s : State) (r : Refusal) :
    s.onEnc f ≠ .refused r := by
  unfold State.onEnc; cases f s.param s.enc <;> simp

theorem State.onDec_ne_refused (f : Width → DecUnit → Except Fault DecUnit) (s : State) (r : Refusal) :
    s.onDec f ≠ .refused r := by
  unfold State.onDec; cases f s.param s.dec <;> simp

/-- No command is refused: every arm of `exec` is a meaning that gives a next state or a fault. -/
theorem exec_ne_refused (i : Instr) (s : State) (r : Refusal) : exec i s ≠ .refused r := by
  cases i with
  | encInit => rw [exec_encInit]; exact State.onEnc_ne_refused _ s r
  | encSym sym => rw [exec_encSym]; exact State.onEnc_ne_refused _ s r
  | encEnd => rw [exec_encEnd]; exact State.onEnc_ne_refused _ s r
  | decInit => rw [exec_decInit]; exact State.onDec_ne_refused _ s r
  | decCode code => rw [exec_decCode]; exact State.onDec_ne_refused _ s r
  | decEos => rw [exec_decEos]; exact State.onDec_ne_refused _ s r

/-- Runs of commands compose. -/
theorem runInstrs_append {is js : List Instr} {s t : State} (h : runInstrs is s = .next t) :
    runInstrs (is ++ js) s = runInstrs js t := by
  induction is generalizing s with
  | nil => simp only [runInstrs, Host.Outcome.next.injEq] at h; rw [h]; rfl
  | cons i is ih =>
    simp only [List.cons_append, runInstrs] at h ⊢
    cases he : exec i s with
    | next u => rw [he] at h; exact ih h
    | fault r => rw [he] at h; cases h
    | refused r => rw [he] at h; cases h

/-- A run whose first command gives a next state goes on from there. -/
theorem runInstrs_cons {i : Instr} {is : List Instr} {s t : State} (h : exec i s = .next t) :
    runInstrs (i :: is) s = runInstrs is t := by
  simp only [runInstrs, h]

end Sys2Proof.Machine
end

