-- ==== Sys2Proof/Laws/Decoder.lean ====
section
/-! SUPPORT. The fields INIT and `learn` leave, and what DEC_CODE can do in ACTIVE, case by case (41_decoder.md
R89). -/

namespace Sys2Proof.Machine

@[simp] theorem DecUnit.init_core (d : DecUnit) : d.init.toUnitCore = d.toUnitCore.openStream := rfl
@[simp] theorem DecUnit.init_table (d : DecUnit) : d.init.table = freshTable := rfl
@[simp] theorem DecUnit.init_highestCode (d : DecUnit) : d.init.highestCode = 257 := rfl
@[simp] theorem DecUnit.init_current (d : DecUnit) : d.init.current = none := rfl

theorem DecUnit.learn_room {W : Width} {d : DecUnit} (q : SymSeq) (h : d.highestCode < W.ncodes) :
    d.learn W q = { d with table := d.table.write d.highestCode (some q), highestCode := d.highestCode + 1 } := by
  simp [DecUnit.learn, h]

theorem DecUnit.learn_full {W : Width} {d : DecUnit} (q : SymSeq) (h : W.ncodes ≤ d.highestCode) :
    d.learn W q = d := by
  simp [DecUnit.learn, Nat.not_lt.2 h]

@[simp] theorem DecUnit.learn_core (W : Width) (d : DecUnit) (q : SymSeq) :
    (d.learn W q).toUnitCore = d.toUnitCore := by
  unfold DecUnit.learn; split <;> rfl

@[simp] theorem DecUnit.learn_current (W : Width) (d : DecUnit) (q : SymSeq) :
    (d.learn W q).current = d.current := by
  unfold DecUnit.learn; split <;> rfl

/-- Learning changes at most the entry at `highestCode` (41_decoder.md R89). -/
theorem DecUnit.learn_read_other (W : Width) (d : DecUnit) (q : SymSeq) {c : Nat} (h : c ≠ d.highestCode) :
    (d.learn W q).table.read c = d.table.read c := by
  unfold DecUnit.learn
  split
  · exact Memory.read_write_other _ _ h
  · rfl

theorem DecUnit.learn_wf {W : Width} {d : DecUnit} (h : d.table.wf) (q : SymSeq) : (d.learn W q).table.wf := by
  unfold DecUnit.learn
  split
  · exact Memory.wf_write h d.highestCode (some q)
  · exact h

theorem DecUnit.learn_within {W : Width} {d : DecUnit} (h : d.table.within W.ncodes) (q : SymSeq) :
    (d.learn W q).table.within W.ncodes := by
  unfold DecUnit.learn
  split
  · exact Memory.within_write h (by assumption) (some q)
  · exact h

/-- The classes of 30_encoding.md R64 are told apart by comparing with `highestCode`. -/
theorem dynClass_cases (hc c : Nat) :
    (c < hc ∧ dynClass hc c = .known) ∨ (c = hc ∧ dynClass hc c = .self) ∨ (hc < c ∧ dynClass hc c = .corrupt) := by
  unfold dynClass
  split_ifs with h1 h2
  · exact .inl ⟨h1, rfl⟩
  · exact .inr (.inl ⟨h2, rfl⟩)
  · exact .inr (.inr ⟨by omega, rfl⟩)

/-- Accepting a sequence (41_decoder.md R89), the effect shared by KNOWN and SELF, as one record. -/
theorem DecUnit.accept_cons (W : Width) (cur : SymSeq) (x : Symbol) (q : SymSeq) (d : DecUnit) :
    d.accept W cur (x :: q) = .ok (if d.highestCode < W.ncodes then
      { d with out := d.out ++ (x :: q).map symWord, table := d.table.write d.highestCode (some (cur ++ [x])),
               highestCode := d.highestCode + 1, current := some (x :: q) }
      else { d with out := d.out ++ (x :: q).map symWord, current := some (x :: q) }) := by
  simp only [DecUnit.accept, DecUnit.emitSeq_eq, DecUnit.learn]
  split_ifs <;> rfl

theorem DecUnit.accept_ok {W : Width} {cur next : SymSeq} {d d' : DecUnit} (h : d.accept W cur next = .ok d') :
    ∃ x q, next = x :: q ∧
      ((d.highestCode < W.ncodes ∧
        d' = { d with out := d.out ++ next.map symWord,
                      table := d.table.write d.highestCode (some (cur ++ [x])),
                      highestCode := d.highestCode + 1, current := some next }) ∨
      (W.ncodes ≤ d.highestCode ∧
        d' = { d with out := d.out ++ next.map symWord, current := some next })) := by
  cases next with
  | nil => cases h
  | cons x q =>
    rw [DecUnit.accept_cons] at h
    refine ⟨x, q, rfl, ?_⟩
    split_ifs at h with hlt
    · exact .inl ⟨hlt, (Except.ok.inj h).symm⟩
    · exact .inr ⟨Nat.le_of_not_lt hlt, (Except.ok.inj h).symm⟩

/-- Everything DEC_CODE can do in ACTIVE (41_decoder.md R89), in the order of its tests. -/
theorem DecUnit.takeCode_ok {c : Nat} {W : Width} {d d' : DecUnit} (h : d.takeCode c W = .ok d') :
    (c = 256 ∧ d' = d.finish) ∨
    (c ≠ 256 ∧ W.ncodes ≤ c ∧ d' = d.streamError .corruptRange) ∨
    (c ≠ 256 ∧ c < W.ncodes ∧ d.current = none ∧ 257 ≤ c ∧ d' = d.streamError .corruptFirst) ∨
    (c < 256 ∧ d.current = none ∧ ∃ q, d.table.read c = some q ∧
      d' = { d with out := d.out ++ q.map symWord, current := some q }) ∨
    (∃ cur next x q, c ≠ 256 ∧ c < W.ncodes ∧ d.current = some cur ∧ next = x :: q ∧
      ((c < d.highestCode ∧ d.table.read c = some next) ∨
        (c = d.highestCode ∧ cur = x :: cur.tail ∧ next = cur ++ [x])) ∧
      ((d.highestCode < W.ncodes ∧
        d' = { d with out := d.out ++ next.map symWord,
                      table := d.table.write d.highestCode (some (cur ++ [x])),
                      highestCode := d.highestCode + 1, current := some next }) ∨
      (W.ncodes ≤ d.highestCode ∧
        d' = { d with out := d.out ++ next.map symWord, current := some next }))) ∨
    (∃ cur, c ≠ 256 ∧ c < W.ncodes ∧ d.current = some cur ∧ d.highestCode < c ∧
      d' = d.streamError .corruptHigh) := by
  unfold DecUnit.takeCode at h
  split_ifs at h with h1 h2
  · exact .inl ⟨h1, by simpa [eq_comm] using h⟩
  · exact .inr (.inl ⟨h1, h2, by simpa [eq_comm] using h⟩)
  · have hlt : c < W.ncodes := Nat.lt_of_not_le h2
    cases hcur : d.current with
    | none =>
      simp only [hcur, DecUnit.firstCode] at h
      split_ifs at h with h3
      · exact .inr (.inr (.inl ⟨h1, hlt, rfl, h3, by simpa [eq_comm] using h⟩))
      · have hc : c < 256 := by simp only [sentinel, firstLearned] at h1 h3; omega
        cases hr : d.table.read c with
        | none => simp [hr] at h
        | some q =>
          exact .inr (.inr (.inr (.inl ⟨hc, rfl, q, rfl, by simpa [hr, eq_comm, DecUnit.emitSeq_eq] using h⟩)))
    | some cur =>
      simp only [hcur, DecUnit.laterCode] at h
      rcases dynClass_cases d.highestCode c with ⟨hc, hk⟩ | ⟨hc, hk⟩ | ⟨hc, hk⟩
      · rw [hk] at h
        cases hr : d.table.read c with
        | none => simp [hr] at h
        | some next =>
          obtain ⟨x, q, hn, hd⟩ := DecUnit.accept_ok (by simpa [hr] using h)
          exact .inr (.inr (.inr (.inr (.inl ⟨cur, next, x, q, h1, hlt, rfl, hn, .inl ⟨hc, rfl⟩, hd⟩))))
      · rw [hk] at h
        cases hq : cur with
        | nil => simp [hq] at h
        | cons x rest =>
          subst hq
          obtain ⟨y, q, hn, hd⟩ := DecUnit.accept_ok h
          obtain ⟨rfl, hq⟩ := List.cons.inj hn
          exact .inr (.inr (.inr (.inr (.inl ⟨_, _, x, q, h1, hlt, rfl, hn, .inr ⟨hc, rfl, rfl⟩, hd⟩))))
      · rw [hk] at h
        exact .inr (.inr (.inr (.inr (.inr ⟨cur, h1, hlt, rfl, hc, by simpa [eq_comm] using h⟩))))

/-- The sentinel's whole effect in ACTIVE (41_decoder.md R89). -/
theorem DecUnit.finish_eq (d : DecUnit) :
    d.finish = { d with out := d.out ++ [closeWord .ok], current := none, state := .done } := rfl

/-- DEC_CODE of the first codeword, a literal (41_decoder.md R89). -/
theorem DecUnit.takeCode_first {W : Width} {d : DecUnit} {c : Nat} {q : SymSeq} (h : d.current = none) (hc : c < 256)
    (hr : d.table.read c = some q) :
    d.takeCode c W = .ok { d with out := d.out ++ q.map symWord, current := some q } := by
  have hW := W.ncodes_range
  have h1 : c ≠ sentinel := by simp only [sentinel]; omega
  have h2 : ¬ W.ncodes ≤ c := by omega
  have h3 : ¬ firstLearned ≤ c := by simp only [firstLearned]; omega
  simp [DecUnit.takeCode, DecUnit.firstCode, h, h1, h2, h3, hr, DecUnit.emitSeq_eq]

/-- DEC_CODE of a KNOWN codeword (41_decoder.md R89). -/
theorem DecUnit.takeCode_known {W : Width} {d : DecUnit} {c : Nat} {cur next : SymSeq} (h : d.current = some cur)
    (h1 : c ≠ 256) (h2 : c < W.ncodes) (h3 : c < d.highestCode) (hr : d.table.read c = some next) :
    d.takeCode c W = d.accept W cur next := by
  simp [DecUnit.takeCode, DecUnit.laterCode, dynClass, h, h1, Nat.not_le.2 h2, h3, hr]

/-- DEC_CODE of a SELF codeword (41_decoder.md R89). -/
theorem DecUnit.takeCode_self {W : Width} {d : DecUnit} {c : Nat} {cur : SymSeq} {x : Symbol}
    (h : d.current = some (x :: cur)) (h1 : c ≠ 256) (h2 : c < W.ncodes) (h3 : c = d.highestCode) :
    d.takeCode c W = d.accept W (x :: cur) (x :: cur ++ [x]) := by
  subst h3
  simp [DecUnit.takeCode, DecUnit.laterCode, dynClass, h, h1, Nat.not_le.2 h2]

/-- DEC_CODE of the sentinel (41_decoder.md R89). -/
theorem DecUnit.takeCode_sentinel (W : Width) (d : DecUnit) : d.takeCode 256 W = .ok d.finish := by
  simp [DecUnit.takeCode]

end Sys2Proof.Machine
end

