-- ==== Sys2Proof/Laws/Encoder.lean ====
section
/-! SUPPORT. The fields INIT and `learn` leave, and what ENC_SYM can do in ACTIVE, case by case (40_encoder.md
R81). -/

namespace Sys2Proof.Machine

@[simp] theorem EncUnit.init_core (e : EncUnit) : e.init.toUnitCore = e.toUnitCore.openStream := rfl
@[simp] theorem EncUnit.init_dict (e : EncUnit) : e.init.dict = freshDict := rfl
@[simp] theorem EncUnit.init_nextCode (e : EncUnit) : e.init.nextCode = 257 := rfl
@[simp] theorem EncUnit.init_w (e : EncUnit) : e.init.w = none := rfl

theorem EncUnit.learn_room {W : Width} {e : EncUnit} (q : SymSeq) (h : e.nextCode < W.ncodes) :
    e.learn W q = { e with dict := e.dict.write e.nextCode (some q), nextCode := e.nextCode + 1 } := by
  simp [EncUnit.learn, h]

theorem EncUnit.learn_full {W : Width} {e : EncUnit} (q : SymSeq) (h : W.ncodes ≤ e.nextCode) :
    e.learn W q = e := by
  simp [EncUnit.learn, Nat.not_lt.2 h]

@[simp] theorem EncUnit.learn_core (W : Width) (e : EncUnit) (q : SymSeq) :
    (e.learn W q).toUnitCore = e.toUnitCore := by
  unfold EncUnit.learn; split <;> rfl

@[simp] theorem EncUnit.learn_w (W : Width) (e : EncUnit) (q : SymSeq) : (e.learn W q).w = e.w := by
  unfold EncUnit.learn; split <;> rfl

/-- Learning changes at most the entry at `nextCode` (40_encoder.md R81). -/
theorem EncUnit.learn_read_other (W : Width) (e : EncUnit) (q : SymSeq) {c : Nat} (h : c ≠ e.nextCode) :
    (e.learn W q).dict.read c = e.dict.read c := by
  unfold EncUnit.learn
  split
  · exact Memory.read_write_other _ _ h
  · rfl

theorem EncUnit.learn_wf {W : Width} {e : EncUnit} (h : e.dict.wf) (q : SymSeq) : (e.learn W q).dict.wf := by
  unfold EncUnit.learn
  split
  · exact Memory.wf_write h e.nextCode (some q)
  · exact h

theorem EncUnit.learn_within {W : Width} {e : EncUnit} (h : e.dict.within W.ncodes) (q : SymSeq) :
    (e.learn W q).dict.within W.ncodes := by
  unfold EncUnit.learn
  split
  · exact Memory.within_write h (by assumption) (some q)
  · exact h

/-- Emitting, learning and restarting, as one record (40_encoder.md R81). -/
theorem EncUnit.restart_eq (W : Width) (s : Symbol) (w : Nat) (q : SymSeq) (e : EncUnit) :
    { (e.emit (codeWord w)).learn W q with w := some (symCode s) } =
      if e.nextCode < W.ncodes then
        { e with out := e.out ++ [codeWord w], dict := e.dict.write e.nextCode (some q),
                 nextCode := e.nextCode + 1, w := some s.toNat }
      else { e with out := e.out ++ [codeWord w], w := some s.toNat } := by
  split_ifs with h
  · rw [EncUnit.learn_room q (by simpa using h)]; rfl
  · rw [EncUnit.learn_full q (by simpa using h)]; rfl

/-- Everything ENC_SYM can do in ACTIVE (40_encoder.md R81): start a match, extend it, or emit, learn while there is
room, and restart. -/
theorem EncUnit.takeSymbol_ok {s : Symbol} {W : Width} {e e' : EncUnit} (h : e.takeSymbol s W = .ok e') :
    (e.w = none ∧ e' = { e with w := some s.toNat }) ∨
    (∃ w q n, e.w = some w ∧ e.dict.read w = some q ∧ e.dict.lookup (q ++ [s]) = some n ∧
      e' = { e with w := some n }) ∨
    (∃ w q, e.w = some w ∧ e.dict.read w = some q ∧ e.dict.lookup (q ++ [s]) = none ∧
      ((e.nextCode < W.ncodes ∧
        e' = { e with out := e.out ++ [codeWord w], dict := e.dict.write e.nextCode (some (q ++ [s])),
                      nextCode := e.nextCode + 1, w := some s.toNat }) ∨
      (W.ncodes ≤ e.nextCode ∧ e' = { e with out := e.out ++ [codeWord w], w := some s.toNat }))) := by
  unfold EncUnit.takeSymbol at h
  cases hw : e.w with
  | none => rw [hw] at h; exact .inl ⟨rfl, by simpa [symCode, eq_comm] using h⟩
  | some w =>
    rw [hw] at h
    cases hr : e.dict.read w with
    | none => simp [hr] at h
    | some q =>
      simp only [hr, EncUnit.extend, Memory.child] at h
      cases hl : e.dict.lookup (q ++ [s]) with
      | none =>
        rw [hl] at h
        refine .inr (.inr ⟨w, q, rfl, hr, hl, ?_⟩)
        have h := (Except.ok.inj h).symm.trans (EncUnit.restart_eq W s w (q ++ [s]) e)
        split_ifs at h with hlt
        · exact .inl ⟨hlt, h⟩
        · exact .inr ⟨Nat.le_of_not_lt hlt, h⟩
      | some n =>
        rw [hl] at h
        exact .inr (.inl ⟨w, q, n, rfl, hr, hl, by simpa [eq_comm] using h⟩)

/-- ENC_SYM with no match pending (40_encoder.md R81). -/
theorem EncUnit.takeSymbol_first {W : Width} {e : EncUnit} (s : Symbol) (h : e.w = none) :
    e.takeSymbol s W = .ok { e with w := some s.toNat } := by
  simp [EncUnit.takeSymbol, h, symCode]

/-- ENC_SYM with the match `w` pending, by what `Lookup` finds (40_encoder.md R81). -/
theorem EncUnit.takeSymbol_pending {W : Width} {e : EncUnit} (s : Symbol) {w : Nat} {q : SymSeq} (h : e.w = some w)
    (hq : e.dict.read w = some q) :
    e.takeSymbol s W = .ok (match e.dict.lookup (q ++ [s]) with
      | some n => { e with w := some n }
      | none =>
        if e.nextCode < W.ncodes then
          { e with out := e.out ++ [codeWord w], dict := e.dict.write e.nextCode (some (q ++ [s])),
                   nextCode := e.nextCode + 1, w := some s.toNat }
        else { e with out := e.out ++ [codeWord w], w := some s.toNat }) := by
  simp only [EncUnit.takeSymbol, h, hq, EncUnit.extend, Memory.child]
  cases hl : e.dict.lookup (q ++ [s]) with
  | none => exact congrArg Except.ok (EncUnit.restart_eq W s w (q ++ [s]) e)
  | some n => rfl

/-- ENC_SYM in ACTIVE stops only where the pending match names no entry (log 5). -/
theorem EncUnit.takeSymbol_completes {s : Symbol} {W : Width} {e : EncUnit}
    (h : ∀ w, e.w = some w → ∃ q, e.dict.read w = some q) : ∃ e', e.takeSymbol s W = .ok e' := by
  unfold EncUnit.takeSymbol
  cases hw : e.w with
  | none => exact ⟨_, rfl⟩
  | some w =>
    obtain ⟨q, hq⟩ := h w hw
    simp [hq]

/-- ENC_END's whole effect in ACTIVE (40_encoder.md R82). -/
theorem EncUnit.finish_eq (e : EncUnit) :
    e.finish = { e with
      out := e.out ++ e.w.toList.map codeWord ++ [codeWord 256, closeWord .ok], w := none, state := .done } := by
  unfold EncUnit.finish EncUnit.emitPending
  cases hw : e.w <;> simp [EncUnit.emit, UnitCore.emit]

end Sys2Proof.Machine
end

