-- ==== Sys2Proof/Laws/Fresh.lean ====
section
/-! SUPPORT. A fresh dictionary meets the invariants of 10_state.md R25 and R26, and reset is a record without a
stream. -/

namespace Sys2Proof.Machine

theorem symCode_lt (s : Symbol) : s.toNat < 256 := s.isLt

theorem freshDict_within (W : Width) : freshDict.within W.ncodes := by
  rintro ⟨c, q⟩ h
  have := ((mem_literalEntries c q).1 h).1
  have := W.ncodes_range
  show c < W.ncodes
  omega

theorem freshTable_within (W : Width) : freshTable.within W.ncodes := by
  rintro ⟨c, q⟩ h
  have := W.ncodes_range
  show c < W.ncodes
  rcases (mem_freshTable c q).1 h with h | h
  · have := h.1; omega
  · have := h.1; omega

theorem freshDict_learned (W : Width) : freshDict.Learned W 257 where
  literals s := by rw [freshDict_literal s.isLt]; simp
  counter := ⟨le_rfl, by have := W.ncodes_range; omega⟩
  lengths c h1 h2 := by simp only [firstLearned] at h1; omega
  free c h := freshDict_none (by omega)
  closed c q h1 h2 := by rw [freshDict_none (by simp only [firstLearned] at h1; omega)] at h2; cases h2

theorem freshTable_learned (W : Width) : freshTable.Learned W 257 where
  literals s := by rw [freshTable_literal s.isLt]; simp
  counter := ⟨le_rfl, by have := W.ncodes_range; omega⟩
  lengths c h1 h2 := by simp only [firstLearned] at h1; omega
  free c h := freshTable_none h
  closed c q h1 h2 := by rw [freshTable_none h1] at h2; cases h2

/-- A symbol's code and its one-symbol sequence (00_scope.md R3). -/
theorem freshDict_read_eq {c : Nat} {q : SymSeq} (h : freshDict.read c = some q) :
    c < 256 ∧ q = [BitVec.ofNat 8 c] :=
  (mem_literalEntries c q).1 ((Memory.mem_iff_read freshDict_wf c q).2 h)

/-- ENC_INIT leaves what 10_state.md R25 asks for. -/
theorem EncUnit.init_openInv (W : Width) (e : EncUnit) : e.init.OpenInv W where
  learned := freshDict_learned W
  noSentinel := freshDict_none le_rfl
  unique c c' q h h' := by
    obtain ⟨hc, hq⟩ := freshDict_read_eq h
    obtain ⟨hc', hq'⟩ := freshDict_read_eq h'
    have : BitVec.ofNat 8 c = BitVec.ofNat 8 c' := by simpa using hq.symm.trans hq'
    have := congrArg BitVec.toNat this
    simp only [BitVec.toNat_ofNat] at this
    omega
  pending c h := by cases h

/-- DEC_INIT leaves what 10_state.md R26 asks for. -/
theorem DecUnit.init_openInv (W : Width) (d : DecUnit) : d.init.OpenInv W where
  learned := freshTable_learned W
  sentinelEmpty := freshTable_sentinel
  current q h := by cases h

/-- What is true of every cell is true of every entry that can be read. -/
theorem Memory.read_all {m : Memory} (h : m.wf) {P : Nat × SymSeq → Prop} (hall : ∀ cell ∈ m, P cell) {c : Nat}
    {q : SymSeq} (hr : m.read c = some q) : P (c, q) := hall _ ((Memory.mem_iff_read h c q).2 hr)

/-- A fresh dictionary with learned entries after it is in canonical form. -/
theorem freshDict_append_wf {m : Memory} (h : m.wf) (hm : ∀ cell ∈ m, 257 ≤ cell.1) : Memory.wf (freshDict ++ m) := by
  refine List.pairwise_append.2 ⟨freshDict_wf, h, fun a ha b hb => ?_⟩
  have h1 : a.1 < 256 := ((mem_literalEntries a.1 a.2).1 ha).1
  have h2 := hm b hb
  omega

/-- A fresh table with learned entries after it is in canonical form. -/
theorem freshTable_append_wf {m : Memory} (h : m.wf) (hm : ∀ cell ∈ m, 257 ≤ cell.1) :
    Memory.wf (freshTable ++ m) := by
  refine List.pairwise_append.2 ⟨freshTable_wf, h, fun a ha b hb => ?_⟩
  have h1 : a.1 ≤ 256 := by
    rcases (mem_freshTable a.1 a.2).1 ha with h | h <;> omega
  have h2 := hm b hb
  omega

end Sys2Proof.Machine
end

