-- ==== Sys2Proof/Laws/PerInstr.lean ====
section
/-! SUPPORT. Per-command lemmas, for the host's case split over the constructors of `Instr`. -/

namespace Sys2Proof.Laws.EncodesLegal

/-- The word of a command is legal on its unit (30_encoding.md R66, R68). -/
def Statement (i : Instr) : Prop := legal i.unit (encode i) = true

theorem encInit : Statement .encInit := by unfold Statement; decide

theorem encSym (sym : BitVec 8) : Statement (.encSym sym) := by
  revert sym
  unfold Statement
  decide +kernel

theorem encEnd : Statement .encEnd := by unfold Statement; decide

theorem decInit : Statement .decInit := by unfold Statement; decide

theorem decCode (code : BitVec 12) : Statement (.decCode code) := by
  revert code
  unfold Statement
  decide +kernel

theorem decEos : Statement .decEos := by unfold Statement; decide

end Sys2Proof.Laws.EncodesLegal
end

