-- ==== Sys2Proof/Tests/Slice0.lean ====
section
/-! SUPPORT. The package's own tests: words written out from the opcode map, one-step tests whose expected values
are the vectors of spec/95_test_vectors.md, and for each statement with hypotheses a named state that meets them. -/

/- The kernel evaluates these closed facts one after another: side by side they take a thread each. -/
set_option Elab.async false

namespace Sys2Proof.Tests

open Sys2Proof Sys2Proof.Machine

/-! ## Helpers -/

/-- The next state, if the outcome is one. -/
def nextOf : Host.Outcome State Fault Refusal → Option State
  | .next t => some t
  | .fault _ => none
  | .refused _ => none

/-- The next state, or the reset state. -/
def endOf (o : Host.Outcome State Fault Refusal) : State := (nextOf o).getD State.reset

/-- An outcome with a next state is `next` of `endOf`. -/
theorem next_endOf {o : Host.Outcome State Fault Refusal} (h : (nextOf o).isSome = true) : o = .next (endOf o) := by
  cases o with
  | next t => rfl
  | fault r => cases h
  | refused r => cases h

/-- An encoder with an open stream, which has learned `extra` and has the match `w` pending. -/
def encWith (extra : Memory) (next : Nat) (w : Option Nat) : State :=
  { State.reset with enc := { state := .active, err := .ok, out := [], dict := freshDict ++ extra,
                              nextCode := next, w := w } }

/-- A decoder with an open stream, which has learned `extra` and decoded `cur` last. -/
def decWith (extra : Memory) (next : Nat) (cur : Option SymSeq) : State :=
  { State.reset with dec := { state := .active, err := .ok, out := [], table := freshTable ++ extra,
                              highestCode := next, current := cur } }

/-- The encoder in a state, with no stream. -/
def encIn (st : UnitState) (err : Status) : State :=
  { State.reset with enc := { EncUnit.reset with state := st, err := err } }

/-- The decoder in a state, with no stream. -/
def decIn (st : UnitState) (err : Status) : State :=
  { State.reset with dec := { DecUnit.reset with state := st, err := err } }

/-- The word a unit is sent next, the host doing nothing else. -/
def sending (u : UnitId) (cmd : CmdWord) (s : State) : State := { s with host := [.send u cmd] }

/-- The encoder's output and STATUS after one command. -/
def encAfter (i : Instr) (s : State) : Option (List OutWord × RegWord) :=
  (nextOf (exec i s)).map fun t => (t.enc.out, t.readPort 0)

/-- The decoder's output and STATUS after one command. -/
def decAfter (i : Instr) (s : State) : Option (List OutWord × RegWord) :=
  (nextOf (exec i s)).map fun t => (t.dec.out, t.readPort 1)

/-! ## WellFormed: a term that is not well formed, for each check (30_encoding.md R68, R78) -/

theorem test_legal_refuses_reserved_opcode : legal .enc 0x0000#16 = false ∧ legal .dec 0x6000#16 = false := by decide
theorem test_legal_refuses_other_unit : legal .enc 0x4101#16 = false ∧ legal .dec 0x2041#16 = false := by decide
theorem test_legal_refuses_argument : legal .enc 0x3001#16 = false ∧ legal .dec 0x5001#16 = false := by decide
theorem test_legal_refuses_sym_high_bits : legal .enc 0x2100#16 = false ∧ legal .enc 0x20FF#16 = true := by decide
theorem test_symNumber_refused : symNumberOk 256 = false ∧ symNumberOk 255 = true := by decide
theorem test_codeNumber_refused : codeNumberOk 4096 = false ∧ codeNumberOk 4095 = true := by decide
theorem test_wordNumber_refused : wordNumberOk 65536 = false ∧ wordNumberOk 65535 = true := by decide

/-! ## Decode: words written out bit by bit (30_encoding.md R66), and words refused by name -/

theorem test_decode_encInit : decode .enc 0b0001000000000000#16 = .ok .encInit := by decide
theorem test_decode_encSym : decode .enc 0b0010000001000001#16 = .ok (.encSym 65#8) := by decide
theorem test_decode_encEnd : decode .enc 0b0011000000000000#16 = .ok .encEnd := by decide
theorem test_decode_decInit : decode .dec 0b0001000000000000#16 = .ok .decInit := by decide
theorem test_decode_decCode : decode .dec 0b0100000100000011#16 = .ok (.decCode 259#12) := by decide
theorem test_decode_decEos : decode .dec 0b0101000000000000#16 = .ok .decEos := by decide
theorem test_encode_encSym : encode (.encSym 0x41#8) = 0x2041#16 := by decide
theorem test_encode_decCode : encode (.decCode 259#12) = 0x4103#16 := by decide
theorem test_decode_names_refusals :
    decode .enc 0x4101#16 = .error .otherUnitsOpcode ∧ decode .enc 0x2100#16 = .error .nonzeroReserved ∧
    decode .dec 0x1001#16 = .error .nonzeroArg ∧ decode .dec 0xF000#16 = .error .reservedOpcode := by decide
theorem test_decodeTableWord :
    decodeTableWord 16 0x2041 = some (.encSym 65#8) ∧ decodeTableWord 16 0x4103 = some (.decCode 259#12) ∧
    decodeTableWord 16 0x1000 = some .encInit ∧ decodeTableWord 16 0x6000 = none := by decide

/-- The very next step after `withFetchWord` runs the word (V-I1, V-D11). -/
theorem test_withFetchWord :
    (nextOf (step (State.reset.withFetchWord 16 0x1000))).map (·.readPort 0) = some 0x01010001#32 ∧
    (nextOf (step (State.reset.withFetchWord 16 0x4041))).map (·.readPort 1) = some 0x00000023#32 := by
  decide +kernel

/-- The boundaries of the classes (30_encoding.md R63). -/
theorem test_staticClass :
    staticClass 255 = .literal ∧ staticClass 256 = .sentinel ∧ staticClass 257 = .learned ∧
    staticClass 4095 = .learned := by decide

/-! ## Output words (30_encoding.md R71, with the codes of 60_exceptions.md R95) -/

theorem test_codeWord_symWord :
    codeWord 256 = 0x0100#16 ∧ codeWord 4095 = 0x0FFF#16 ∧ symWord 0x41#8 = 0x0041#16 ∧ symWord 0xFF#8 = 0x00FF#16 := by
  decide
theorem test_closeWord :
    [Status.ok, .illegalCmd, .sequence, .corruptHigh, .corruptFirst, .corruptTruncated, .corruptRange, .aborted].map
      closeWord = [0xF000#16, 0xF001#16, 0xF002#16, 0xF003#16, 0xF004#16, 0xF005#16, 0xF006#16, 0xF007#16] := by decide

/-! ## Registers (spec/95_test_vectors.md 2.9) -/


/-- V-R1 to V-R4. -/
theorem test_readPort_reset :
    State.reset.readPort 0 = 0#32 ∧ State.reset.readPort 1 = 0#32 ∧ State.reset.readPort 2 = 0x0000000C#32 ∧
    State.reset.readPort 3 = 0#32 := by decide

/-- V-R6: a frozen dictionary at W = 9. -/
theorem test_status_full :
    statusWord .nine 512 .ok false .done = 0x02000102#32 ∧
    ({ State.reset with param := .nine } : State).readPort 2 = 0x00000009#32 := by decide

/-! ## Encoder commands (spec/95_test_vectors.md 2.1 to 2.3) -/

/-- V-I3: INIT while ACTIVE. -/
theorem test_encInit_aborts : encAfter .encInit (encWith [] 257 (some 65)) = some ([0xF007#16], 0x01010001#32) := by
  decide +kernel
/-- V-I6: INIT in ERROR recovers without a CLOSE word. -/
theorem test_encInit_recovers : encAfter .encInit (encIn .error .illegalCmd) = some ([], 0x01010001#32) := by
  decide +kernel
/-- V-E2: the second symbol emits the first and learns "AB". -/
theorem test_encSym_learns :
    encAfter (.encSym 66#8) (encWith [] 257 (some 65)) = some ([0x0041#16], 0x01020009#32) ∧
    (nextOf (exec (.encSym 66#8) (encWith [] 257 (some 65)))).map (fun t => (t.enc.dict.read 257, t.enc.w)) =
      some (some [65#8, 66#8], some 66) := by decide +kernel
/-- V-E4: the third "A" extends the match to 257. -/
theorem test_encSym_extends :
    encAfter (.encSym 65#8) (encWith [(257, [65#8, 65#8])] 258 (some 65)) = some ([], 0x01020009#32) ∧
    (nextOf (exec (.encSym 65#8) (encWith [(257, [65#8, 65#8])] 258 (some 65)))).map (·.enc.w) =
      some (some 257) := by decide +kernel
/-- V-N6: ENC_END with 97 pending. -/
theorem test_encEnd_pending :
    encAfter .encEnd (encWith [(257, [97#8, 97#8]), (258, [97#8, 97#8, 97#8])] 259 (some 97)) =
      some ([0x0061#16, 0x0100#16, 0xF000#16], 0x01030002#32) := by decide +kernel
/-- V-N1 and V-N12: the empty stream, and ENC_END in IDLE. -/
theorem test_encEnd_empty :
    encAfter .encEnd (encWith [] 257 none) = some ([0x0100#16, 0xF000#16], 0x01010002#32) ∧
    encAfter .encEnd State.reset = some ([], 0x00000023#32) := by decide +kernel

/-! ## Decoder commands (spec/95_test_vectors.md 2.4, 2.5) -/

/-- V-I4: INIT while ACTIVE. -/
theorem test_decInit_aborts :
    decAfter .decInit (decWith [] 257 (some [65#8])) = some ([0xF007#16], 0x01010001#32) := by decide +kernel
/-- V-D2: SELF. -/
theorem test_decCode_self :
    decAfter (.decCode 0x101#12) (decWith [] 257 (some [0x61#8])) =
      some ([0x0061#16, 0x0061#16], 0x01020009#32) := by decide +kernel
/-- V-D9, only at W < 12; V-D5; the last command of V-D7: the three corrupt codewords. -/
theorem test_decCode_corrupt :
    decAfter (.decCode 0x200#12) { decWith [] 257 (some [65#8]) with param := .nine } =
      some ([0xF006#16], 0x01010063#32) ∧
    decAfter (.decCode 0x101#12) (decWith [] 257 none) = some ([0xF004#16], 0x01010043#32) ∧
    decAfter (.decCode 0x12C#12) (decWith [] 257 (some [65#8])) = some ([0xF003#16], 0x01010033#32) := by
  decide +kernel
/-- V-T2 and V-T3: DEC_EOS in ACTIVE, and after the sentinel. -/
theorem test_decEos :
    decAfter .decEos (decWith [] 257 none) = some ([0xF005#16], 0x01010053#32) ∧
    decAfter .decEos (decIn .done .ok) = some ([], 0x00000002#32) := by decide +kernel

/-! ## Dispatch (spec/95_test_vectors.md 2.6) -/

/-- V-X4, V-X9: illegal words in IDLE emit nothing. -/
theorem test_illegal_idle :
    (nextOf (step (sending .enc 0x4041#16 State.reset))).map (fun t => (t.enc.out, t.readPort 0)) =
      some ([], 0x00000013#32) := by decide +kernel
/-- V-X1: an illegal opcode in ACTIVE closes the stream and drops the pending match. -/
theorem test_illegal_active :
    (nextOf (step (sending .enc 0x6000#16 (encWith [] 257 (some 65))))).map (fun t => (t.enc.out, t.readPort 0)) =
      some ([0xF001#16], 0x01010013#32) := by decide +kernel

/-! ## Wire format and command text (spec/95_test_vectors.md 2.7; 30_encoding.md R77, R78) -/

/-- V-W2 and V-W8. -/
theorem test_pack :
    packCodes .twelve [65, 256] = [0x04#8, 0x11#8, 0x00#8] ∧
    packCodes .twelve [65, 66, 257, 259, 256] =
      [0x04#8, 0x10#8, 0x42#8, 0x10#8, 0x11#8, 0x03#8, 0x10#8, 0x00#8] := by decide +kernel
/-- V-W2 unpacked. -/
theorem test_unpack : unpackCodes .twelve [0x04#8, 0x11#8, 0x00#8] = [65, 256] := by decide +kernel
/-- R78's examples. -/
theorem test_assemble_lines :
    assembleLine "ENC_SYM 'A' ; first".toList = .ok [⟨.enc, 0x2041#16⟩] ∧
    assembleLine "DEC_CODE 259".toList = .ok [⟨.dec, 0x4103#16⟩] ∧
    assembleLine "ENC .word 0x4101".toList = .ok [⟨.enc, 0x4101#16⟩] := by decide +kernel
/-- R79's pseudo-commands (P5). -/
theorem test_assemble_stream :
    assembleLine "ENC_STREAM \"aa\"".toList =
      .ok [⟨.enc, 0x1000#16⟩, ⟨.enc, 0x2061#16⟩, ⟨.enc, 0x2061#16⟩, ⟨.enc, 0x3000#16⟩] ∧
    assembleLine "DEC_STREAM 97, 257".toList =
      .ok [⟨.dec, 0x1000#16⟩, ⟨.dec, 0x4061#16⟩, ⟨.dec, 0x4101#16⟩, ⟨.dec, 0x5000#16⟩] := by decide +kernel
/-- V-N5: the source's algorithm on "AAA". -/
theorem test_source_compress : (compress .twelve [65#8, 65#8, 65#8]).codes = [65, 257, 256] := by decide +kernel

/-! ## Witnesses: states and operands that meet the hypotheses of the statements -/

theorem witness_HardwareResetClearsBothUnits :
    ({ encWith [] 257 (some 65) with host := [.hardReset, .take .enc] } : State).host =
      .hardReset :: [.take .enc] := rfl

theorem witness_StepRunsDecodedCommand :
    (sending .dec 0x5000#16 State.reset).host = .send .dec 0x5000#16 :: [] ∧
    decode .dec 0x5000#16 = .ok .decEos := by decide

theorem witness_StepWithoutActionKeepsState : State.reset.host = [] := rfl

/-- An encoder and a decoder with one word queued each, the host about to take one. -/
def withQueues (u : UnitId) : State :=
  { State.reset with enc := { EncUnit.reset with out := [0x0041#16] },
                     dec := { DecUnit.reset with out := [0xF000#16] }, host := [.take u] }

theorem witness_TakeRemovesFrontWord :
    (withQueues .enc).host = .take .enc :: [] ∧ (withQueues .enc).enc.out = 0x0041#16 :: [] ∧
    (withQueues .dec).host = .take .dec :: [] ∧ (withQueues .dec).dec.out = 0xF000#16 :: [] := by decide

theorem witness_IllegalWordRaisesIllegalCmd :
    (sending .enc 0x2100#16 (encWith [] 257 none)).host = .send .enc 0x2100#16 :: [] ∧
    legal .enc 0x2100#16 = false ∧
    ((sending .enc 0x2100#16 (encWith [] 257 none)).unitCore .enc).state ≠ .error ∧
    ((sending .enc 0x2100#16 (encIn .error .sequence)).unitCore .enc).state = .error := by decide

theorem witness_ErrorStateIgnoresAllButInit :
    (sending .dec 0x1001#16 (decIn .error .corruptHigh)).host = .send .dec 0x1001#16 :: [] ∧
    ((sending .dec 0x1001#16 (decIn .error .corruptHigh)).unitCore .dec).state = .error ∧
    (0x1001#16 : CmdWord) ≠ 0x1000#16 ∧
    (sending .dec 0x1000#16 (decIn .error .corruptHigh)).host = .send .dec 0x1000#16 :: [] ∧
    ((sending .dec 0x1000#16 (decIn .error .corruptHigh)).unitCore .dec).state = .error := by decide

theorem witness_OnlyInitOrResetLeavesError_init :
    step (sending .enc 0x1000#16 (encIn .error .sequence)) =
      .next (endOf (step (sending .enc 0x1000#16 (encIn .error .sequence)))) ∧
    ((sending .enc 0x1000#16 (encIn .error .sequence)).unitCore .enc).state = .error ∧
    ((endOf (step (sending .enc 0x1000#16 (encIn .error .sequence)))).unitCore .enc).state ≠ .error :=
  ⟨next_endOf (by decide +kernel), by decide +kernel, by decide +kernel⟩

theorem witness_OnlyInitOrResetLeavesError_reset :
    step { encIn .error .sequence with host := [.hardReset] } = .next State.reset ∧
    ((encIn .error .sequence).unitCore .enc).state = .error ∧ (State.reset.unitCore .enc).state ≠ .error :=
  ⟨rfl, by decide, by decide⟩

theorem witness_SequenceErrors :
    Instr.isInit (.encSym 0xFF#8) = false ∧ (State.reset.unitCore (Instr.unit (.encSym 0xFF#8))).state = .idle ∧
    Instr.isInit .decEos = false ∧ (State.reset.unitCore (Instr.unit .decEos)).state = .idle ∧
    Instr.isInit .encEnd = false ∧ Instr.unit .encEnd = .enc ∧ (encIn .done .ok).enc.state = .done := by decide

theorem witness_DecoderIgnoresCommandsWhenDone :
    Instr.unit (.decCode 0xFFF#12) = .dec ∧ Instr.isInit (.decCode 0xFFF#12) = false ∧
    (decIn .done .ok).dec.state = .done := by decide

theorem witness_EncodeOfDecode : decode .dec 0x4FFF#16 = .ok (.decCode 0xFFF#12) := by decide

theorem witness_InitInActiveAborts :
    (encWith [] 257 (some 65)).enc.state = .active ∧ (decWith [] 257 none).dec.state = .active := by decide

theorem witness_EncSymFirstSymbol :
    (encWith [] 257 none).enc.state = .active ∧ (encWith [] 257 none).enc.w = none := by decide

theorem wf_encWith_AA : (encWith [(257, [65#8, 65#8])] 258 (some 65)).enc.dict.wf :=
  freshDict_append_wf (by decide) (by decide)

theorem witness_EncSymExtendsMatch :
    (encWith [(257, [65#8, 65#8])] 258 (some 65)).enc.state = .active ∧
    (encWith [(257, [65#8, 65#8])] 258 (some 65)).enc.w = some 65 ∧
    (encWith [(257, [65#8, 65#8])] 258 (some 65)).enc.dict.wf ∧
    (encWith [(257, [65#8, 65#8])] 258 (some 65)).enc.dict.read 65 = some [65#8] ∧
    (encWith [(257, [65#8, 65#8])] 258 (some 65)).enc.dict.read 257 = some ([65#8] ++ [65#8]) ∧
    (∀ c, (encWith [(257, [65#8, 65#8])] 258 (some 65)).enc.dict.read c = some ([65#8] ++ [65#8]) → c = 257) := by
  refine ⟨rfl, rfl, wf_encWith_AA, by decide +kernel, by decide +kernel, fun c h => ?_⟩
  have hall : ∀ cell ∈ (encWith [(257, [65#8, 65#8])] 258 (some 65)).enc.dict,
      cell.2 = [65#8, 65#8] → cell.1 = 257 := by decide +kernel
  exact Memory.read_all wf_encWith_AA (P := fun cell => cell.2 = [65#8, 65#8] → cell.1 = 257) hall h rfl

theorem freshDict_no_pair (a b : Symbol) (c : Nat) : freshDict.read c ≠ some ([a] ++ [b]) := by
  intro h
  have := (freshDict_read_eq h).2
  simp at this

theorem witness_EncSymEmitsAndLearns :
    (encWith [] 257 (some 65)).enc.state = .active ∧ (encWith [] 257 (some 65)).enc.w = some 65 ∧
    (encWith [] 257 (some 65)).enc.dict.wf ∧ (encWith [] 257 (some 65)).enc.dict.read 65 = some [65#8] ∧
    (∀ c, (encWith [] 257 (some 65)).enc.dict.read c ≠ some ([65#8] ++ [66#8])) ∧
    (encWith [] 257 (some 65)).enc.nextCode < (encWith [] 257 (some 65)).param.ncodes := by
  refine ⟨rfl, rfl, freshDict_append_wf List.Pairwise.nil (by decide), by decide +kernel, fun c => ?_, by decide⟩
  have : (encWith [] 257 (some 65)).enc.dict = freshDict := List.append_nil _
  rw [this]
  exact freshDict_no_pair _ _ c

/-- The code the last entry takes: NEXT = 2^W - 1 and NEXT = 2^W at W = 12. -/
theorem witness_EncSymFrozenEmitsOnly :
    (encWith [] 4096 (some 65)).enc.state = .active ∧ (encWith [] 4096 (some 65)).enc.w = some 65 ∧
    (encWith [] 4096 (some 65)).enc.dict.wf ∧ (encWith [] 4096 (some 65)).enc.dict.read 65 = some [65#8] ∧
    (∀ c, (encWith [] 4096 (some 65)).enc.dict.read c ≠ some ([65#8] ++ [66#8])) ∧
    (encWith [] 4096 (some 65)).param.ncodes ≤ (encWith [] 4096 (some 65)).enc.nextCode ∧
    (encWith [] 4095 (some 65)).enc.nextCode < (encWith [] 4095 (some 65)).param.ncodes := by
  refine ⟨rfl, rfl, freshDict_append_wf List.Pairwise.nil (by decide), by decide +kernel, fun c => ?_, by decide, by decide⟩
  have : (encWith [] 4096 (some 65)).enc.dict = freshDict := List.append_nil _
  rw [this]
  exact freshDict_no_pair _ _ c

theorem witness_EncEndClosesStream : (encWith [] 257 (some 65)).enc.state = .active := rfl

/-- A good state with both streams open, the encoder with a match pending, the decoder with `current`. -/
def goodOpen (host : List HostAction) : State where
  param := .twelve
  enc := { state := .active, err := .ok, out := [], dict := freshDict, nextCode := 257, w := some 65 }
  dec := { state := .active, err := .ok, out := [], table := freshTable, highestCode := 257,
           current := some [65#8] }
  host := host

theorem goodOpen_inv (host : List HostAction) : (goodOpen host).Inv where
  enc :=
    { wf := freshDict_wf
      within := freshDict_within .twelve
      bound := by show 257 ≤ 4096; decide
      opened := fun _ =>
        { learned := freshDict_learned .twelve
          noSentinel := freshDict_none le_rfl
          unique := (EncUnit.init_openInv .twelve EncUnit.reset).unique
          pending := fun c h => by cases h; exact ⟨_, freshDict_literal (by decide)⟩ }
      pendActive := fun _ => rfl
      err := by simp [UnitCore.ErrInv, goodOpen]
      output := fun o h => by cases h }
  dec :=
    { wf := freshTable_wf
      within := freshTable_within .twelve
      bound := by show 257 ≤ 4096; decide
      opened := fun _ =>
        { learned := freshTable_learned .twelve
          sentinelEmpty := freshTable_sentinel
          current := fun q h => by cases h; exact ⟨65, by decide, freshTable_literal (by decide)⟩ }
      pendActive := fun _ => rfl
      err := by simp [UnitCore.ErrInv, goodOpen]
      output := fun o h => by cases h }

theorem witness_InsertionPrecondition :
    (goodOpen []).Inv ∧
    exec (.encSym 66#8) (goodOpen []) = .next (endOf (exec (.encSym 66#8) (goodOpen []))) ∧
    (endOf (exec (.encSym 66#8) (goodOpen []))).enc.nextCode ≠ (goodOpen []).enc.nextCode :=
  ⟨goodOpen_inv [], next_endOf (by decide +kernel), by decide +kernel⟩

theorem witness_EncoderFrame :
    Instr.unit (.encSym 66#8) = .enc ∧ Instr.isInit (.encSym 66#8) = false ∧
    exec (.encSym 66#8) (goodOpen []) = .next (endOf (exec (.encSym 66#8) (goodOpen []))) ∧
    exec .encEnd (goodOpen []) = .next (endOf (exec .encEnd (goodOpen []))) ∧
    (goodOpen []).enc.state = .active :=
  ⟨rfl, rfl, next_endOf (by decide +kernel), next_endOf (by decide +kernel), rfl⟩

theorem witness_DecCodeSentinelEndsStream : (decWith [] 257 none).dec.state = .active := rfl

theorem witness_DecCodeFirstCodeword :
    (decWith [] 257 none).dec.state = .active ∧ (decWith [] 257 none).dec.current = none ∧
    (255#12).toNat < 256 ∧ (decWith [] 257 none).dec.table.read (255#12).toNat = some [255#8] := by
  decide +kernel

theorem witness_DecCodeKnownCodeword :
    (decWith [(257, [65#8, 66#8])] 258 (some [66#8])).dec.state = .active ∧
    (decWith [(257, [65#8, 66#8])] 258 (some [66#8])).dec.current = some [66#8] ∧
    (decWith [(257, [65#8, 66#8])] 258 (some [66#8])).dec.table.wf ∧ (257#12).toNat ≠ 256 ∧
    (257#12).toNat < (decWith [(257, [65#8, 66#8])] 258 (some [66#8])).param.ncodes ∧
    (257#12).toNat < (decWith [(257, [65#8, 66#8])] 258 (some [66#8])).dec.highestCode ∧
    (decWith [(257, [65#8, 66#8])] 258 (some [66#8])).dec.table.read (257#12).toNat = some (65#8 :: [66#8]) ∧
    (decWith [(257, [65#8, 66#8])] 258 (some [66#8])).dec.highestCode <
      (decWith [(257, [65#8, 66#8])] 258 (some [66#8])).param.ncodes :=
  ⟨rfl, rfl, freshTable_append_wf (by decide) (by decide), by decide, by decide, by decide, by decide +kernel, by decide⟩

/-- The same hypotheses with the table frozen. -/
theorem witness_DecCodeKnownCodeword_frozen :
    (decWith [] 4096 (some [66#8])).dec.state = .active ∧ (decWith [] 4096 (some [66#8])).dec.current = some [66#8] ∧
    (decWith [] 4096 (some [66#8])).dec.table.wf ∧ (65#12).toNat ≠ 256 ∧
    (65#12).toNat < (decWith [] 4096 (some [66#8])).param.ncodes ∧
    (65#12).toNat < (decWith [] 4096 (some [66#8])).dec.highestCode ∧
    (decWith [] 4096 (some [66#8])).dec.table.read (65#12).toNat = some (65#8 :: []) ∧
    (decWith [] 4096 (some [66#8])).param.ncodes ≤ (decWith [] 4096 (some [66#8])).dec.highestCode :=
  ⟨rfl, rfl, freshTable_append_wf List.Pairwise.nil (by decide), by decide, by decide, by decide, by decide +kernel,
    by decide⟩

/-- The first SELF codeword, 257, and the last, 4095 (41_decoder.md R89 corner case (f)). -/
theorem witness_DecCodeSelfCodeword :
    (decWith [] 257 (some [97#8])).dec.state = .active ∧ (decWith [] 257 (some [97#8])).dec.current = some (97#8 :: []) ∧
    (decWith [] 257 (some [97#8])).dec.table.wf ∧ (257#12).toNat ≠ 256 ∧
    (257#12).toNat < (decWith [] 257 (some [97#8])).param.ncodes ∧
    (257#12).toNat = (decWith [] 257 (some [97#8])).dec.highestCode ∧
    (4095#12).toNat < (decWith [] 4095 (some [97#8])).param.ncodes ∧
    (4095#12).toNat = (decWith [] 4095 (some [97#8])).dec.highestCode :=
  ⟨rfl, rfl, freshTable_append_wf List.Pairwise.nil (by decide), by decide, by decide, by decide, by decide,
    by decide⟩

/-- CORRUPT_RANGE at 512 for W = 9, CORRUPT_FIRST at 257, CORRUPT_HIGH at 258 while `highestCode` is 257. -/
theorem witness_CorruptCodewordsRaise :
    ({ decWith [] 257 none with param := .nine } : State).dec.state = .active ∧ (512#12).toNat ≠ 256 ∧
    ({ decWith [] 257 none with param := .nine } : State).param.ncodes ≤ (512#12).toNat ∧
    (decWith [] 257 none).param = .twelve ∧ (decWith [] 257 none).dec.state = .active ∧
    (257#12).toNat < (decWith [] 257 none).param.ncodes ∧ (decWith [] 257 none).dec.current = none ∧
    257 ≤ (257#12).toNat ∧ (257#12).toNat ≠ 256 ∧
    (decWith [] 257 (some [65#8])).dec.state = .active ∧
    (258#12).toNat < (decWith [] 257 (some [65#8])).param.ncodes ∧
    (decWith [] 257 (some [65#8])).dec.current = some [65#8] ∧
    (decWith [] 257 (some [65#8])).dec.highestCode < (258#12).toNat ∧ (258#12).toNat ≠ 256 := by decide

theorem witness_DecEosInActiveIsTruncation : (decWith [] 257 (some [65#8])).dec.state = .active := rfl

theorem witness_DecErrorEmitsOnlyItsCloseWord :
    (goodOpen []).dec.state = .active ∧
    exec (.decCode 258#12) (goodOpen []) = .next (endOf (exec (.decCode 258#12) (goodOpen []))) ∧
    (endOf (exec (.decCode 258#12) (goodOpen []))).dec.state = .error :=
  ⟨rfl, next_endOf (by decide +kernel), by decide +kernel⟩

theorem witness_DecoderFrame :
    Instr.unit (.decCode 257#12) = .dec ∧ Instr.isInit (.decCode 257#12) = false ∧
    exec (.decCode 257#12) (goodOpen []) = .next (endOf (exec (.decCode 257#12) (goodOpen []))) ∧
    (endOf (exec (.decCode 257#12) (goodOpen []))).dec.state ≠ .error ∧
    exec .decEos (goodOpen []) = .next (endOf (exec .decEos (goodOpen []))) :=
  ⟨rfl, rfl, next_endOf (by decide +kernel), by decide +kernel, next_endOf (by decide +kernel)⟩

/-- The last codeword of the narrowest and of the widest code space. -/
theorem witness_OutputWordLayout : 511 < Width.ncodes .nine ∧ 4095 < Width.ncodes .twelve := by decide

theorem witness_ParamNeverChanges : step State.reset = .next State.reset := rfl

theorem witness_UnitsAreIndependent :
    runWord .enc 0x2042#16 (goodOpen []) = .next (endOf (runWord .enc 0x2042#16 (goodOpen []))) ∧
    runWord .dec 0x4101#16 (goodOpen []) = .next (endOf (runWord .dec 0x4101#16 (goodOpen []))) :=
  ⟨next_endOf (by decide +kernel), next_endOf (by decide +kernel)⟩

/-- A CLOSE word in ACTIVE by INIT and by the sentinel, none by a symbol, and no stream open. -/
theorem witness_OneCloseWordEndsEachStream :
    runWord .enc 0x1000#16 (goodOpen []) = .next (endOf (runWord .enc 0x1000#16 (goodOpen []))) ∧
    runWord .enc 0x2042#16 (goodOpen []) = .next (endOf (runWord .enc 0x2042#16 (goodOpen []))) ∧
    runWord .dec 0x4100#16 (goodOpen []) = .next (endOf (runWord .dec 0x4100#16 (goodOpen []))) ∧
    (goodOpen []).enc.state = .active ∧ (goodOpen []).dec.state = .active ∧
    runWord .enc 0x3000#16 State.reset = .next (endOf (runWord .enc 0x3000#16 State.reset)) ∧
    State.reset.enc.state ≠ .active :=
  ⟨next_endOf (by decide +kernel), next_endOf (by decide +kernel), next_endOf (by decide +kernel), rfl, rfl,
    next_endOf (by decide +kernel), by decide⟩

theorem witness_EmissionBounds :
    (goodOpen []).Inv ∧
    exec (.decCode 257#12) (goodOpen []) = .next (endOf (exec (.decCode 257#12) (goodOpen []))) ∧
    exec .encEnd (goodOpen []) = .next (endOf (exec .encEnd (goodOpen []))) :=
  ⟨goodOpen_inv [], next_endOf (by decide +kernel), next_endOf (by decide +kernel)⟩

theorem witness_EveryCommandWordHasANextState : (goodOpen []).Inv := goodOpen_inv []

theorem witness_EveryStepKeepsGood :
    (goodOpen [.send .enc 0x2042#16]).Inv ∧
    step (goodOpen [.send .enc 0x2042#16]) = .next (endOf (step (goodOpen [.send .enc 0x2042#16]))) :=
  ⟨goodOpen_inv _, next_endOf (by decide +kernel)⟩

/-- Two states in IDLE whose dictionaries differ. -/
theorem witness_ClosedDictionariesAreUnobservable :
    State.reset.Alike { State.reset with enc := { EncUnit.reset with dict := [(300, [1#8])] } } ∧
    State.reset.enc.dict ≠ [(300, [1#8])] :=
  ⟨⟨rfl, rfl, ⟨rfl, rfl, rfl, fun h => by cases h⟩, ⟨rfl, rfl, rfl, fun _ => rfl⟩⟩, by decide⟩

theorem witness_InitLoopsBuildFreshDictionaries :
    Memory.wf [(3, []), (256, [9#8]), (511, [1#8, 2#8])] ∧
    Memory.within (Width.ncodes .nine) [(3, []), (256, [9#8]), (511, [1#8, 2#8])] := by
  refine ⟨by decide, ?_⟩
  unfold Memory.within
  decide

theorem witness_StepsRunTheCommandsInOrder :
    runInstrs [.encSym 66#8, .decEos] (goodOpen []) = .next (endOf (runInstrs [.encSym 66#8, .decEos] (goodOpen []))) :=
  next_endOf (by decide +kernel)

/-- A stream of two symbols from reset: two data codewords. -/
theorem runs_AB :
    runInstrs (encStream [65#8, 66#8]) State.reset = .next (endOf (runInstrs (encStream [65#8, 66#8]) State.reset)) :=
  next_endOf (by decide +kernel)

theorem output_AB :
    (endOf (runInstrs (encStream [65#8, 66#8]) State.reset)).enc.out =
      State.reset.enc.toUnitCore.queueAtInit ++ [65, 66].map codeWord ++ [0x0100#16, 0xF000#16] := by
  decide +kernel

theorem witness_SentinelIsTheLastCodewordOnly :
    runInstrs (encStream [65#8, 66#8]) State.reset = .next (endOf (runInstrs (encStream [65#8, 66#8]) State.reset)) :=
  runs_AB

theorem witness_EncoderGrowth :
    runInstrs (encStream [65#8, 66#8]) State.reset =
      .next (endOf (runInstrs (encStream [65#8, 66#8]) State.reset)) ∧
    (endOf (runInstrs (encStream [65#8, 66#8]) State.reset)).enc.out =
      State.reset.enc.toUnitCore.queueAtInit ++ [65, 66].map codeWord ++ [0x0100#16, 0xF000#16] :=
  ⟨runs_AB, output_AB⟩

theorem witness_DataCodewordsSpellTheInput :
    runInstrs (encStream [65#8, 66#8]) State.reset =
      .next (endOf (runInstrs (encStream [65#8, 66#8]) State.reset)) ∧ [65#8, 66#8] ≠ ([] : SymSeq) ∧
    runInstrs (encStream []) State.reset = .next (endOf (runInstrs (encStream []) State.reset)) :=
  ⟨runs_AB, by decide, next_endOf (by decide +kernel)⟩

theorem witness_DictionariesStaySynchronised :
    runInstrs (encStream [65#8, 66#8]) State.reset =
      .next (endOf (runInstrs (encStream [65#8, 66#8]) State.reset)) ∧
    (endOf (runInstrs (encStream [65#8, 66#8]) State.reset)).enc.out =
      State.reset.enc.toUnitCore.queueAtInit ++ [65, 66].map codeWord ++ [0x0100#16, 0xF000#16] ∧
    1 ≤ 2 ∧ 2 ≤ [65, 66].length :=
  ⟨runs_AB, output_AB, by decide, by decide⟩

theorem witness_DecoderGrowth :
    (∀ c ∈ [65#12, 257#12], c ≠ 256#12) ∧
    runInstrs (.decInit :: [65#12, 257#12].map .decCode) State.reset =
      .next (endOf (runInstrs (.decInit :: [65#12, 257#12].map .decCode) State.reset)) ∧
    (endOf (runInstrs (.decInit :: [65#12, 257#12].map .decCode) State.reset)).dec.state = .active :=
  ⟨by simp, next_endOf (by decide +kernel), by decide +kernel⟩

theorem witness_TripleStartIsSelfReferential :
    runInstrs (encStream (97#8 :: 97#8 :: 97#8 :: [97#8])) State.reset =
      .next (endOf (runInstrs (encStream (97#8 :: 97#8 :: 97#8 :: [97#8])) State.reset)) :=
  next_endOf (by decide +kernel)

/-- Bit 11 of the first codeword, and the first padding bit of one codeword at W = 12. -/
theorem witness_WireBitOrder :
    [65][0]? = some 65 ∧ 11 < Width.bits .twelve ∧ [65].length * Width.bits .twelve ≤ 12 ∧
    (packCodes .twelve [65])[12 / 8]? = some 0x10#8 := by decide +kernel

theorem witness_UnpackOfPack : ∀ c ∈ [0, 511, 256], c < Width.ncodes .nine := by decide

end Sys2Proof.Tests
end

section
/-! Every command word has a next state (00_scope.md R15). A command word runs a command of its own unit, or is
illegal there; in a good unit every command completes, since the invariants of 10_state.md R25 and R26 supply the
entries it reads; and no command takes a word back from its unit's output queue. -/

namespace Sys2Proof.Machine

/-! ## A unit's decoder gives commands of that unit -/

theorem decodeNoOperand_ok {i j : Instr} {cmd : CmdWord} (h : decodeNoOperand i cmd = .ok j) : j = i := by
  unfold decodeNoOperand at h
  split_ifs at h
  exact (Except.ok.inj h).symm

theorem decodeEncSym_ok {i : Instr} {cmd : CmdWord} (h : decodeEncSym cmd = .ok i) :
    i = .encSym (symField cmd) := by
  unfold decodeEncSym at h
  split_ifs at h
  exact (Except.ok.inj h).symm

theorem decodeEnc_ok_unit {cmd : CmdWord} {i : Instr} (h : decodeEnc cmd = .ok i) : i.unit = .enc := by
  unfold decodeEnc at h
  split at h
  · rw [decodeNoOperand_ok h]; rfl
  · rw [decodeEncSym_ok h]; rfl
  · rw [decodeNoOperand_ok h]; rfl
  all_goals cases h

theorem decodeDec_ok_unit {cmd : CmdWord} {i : Instr} (h : decodeDec cmd = .ok i) : i.unit = .dec := by
  unfold decodeDec at h
  split at h
  · rw [decodeNoOperand_ok h]; rfl
  · cases h
  · cases h
  · cases h; rfl
  · rw [decodeNoOperand_ok h]; rfl
  · cases h

/-- A word legal on a unit is a command of that unit (30_encoding.md R66). -/
theorem decode_ok_unit {u : UnitId} {cmd : CmdWord} {i : Instr} (h : decode u cmd = .ok i) : i.unit = u := by
  cases u with
  | enc => exact decodeEnc_ok_unit h
  | dec => exact decodeDec_ok_unit h

/-! ## The entries a good unit's commands read -/

/-- Every code below `next` but the sentinel has an entry, and it is not empty (10_state.md R25, R26 (1), (4)). -/
theorem Memory.Learned.read_lt {W : Width} {next : Nat} {m : Memory} (h : m.Learned W next) {c : Nat}
    (hc : c < next) (hs : c ≠ 256) : ∃ x q, m.read c = some (x :: q) := by
  rcases Nat.lt_or_gt_of_ne hs with hlit | hlearned
  · have hread := h.literals (BitVec.ofNat 8 c)
    rw [BitVec.toNat_ofNat, Nat.mod_eq_of_lt hlit] at hread
    exact ⟨_, _, hread⟩
  · obtain ⟨q, hread, hlen, -⟩ := h.lengths c hlearned hc
    cases q with
    | nil => simp at hlen
    | cons x q => exact ⟨x, q, hread⟩

/-- Only the sentinel's entry can be empty (10_state.md R26 (2), (4)). -/
theorem Memory.Learned.ne_nil_of_read {W : Width} {next : Nat} {m : Memory} (h : m.Learned W next) {c : Nat}
    {q : SymSeq} (hread : m.read c = some q) (hs : c ≠ 256) : q ≠ [] := by
  have hc : c < next := by
    by_contra hge
    rw [h.free c (Nat.le_of_not_lt hge)] at hread
    cases hread
  obtain ⟨x, q', hcons⟩ := h.read_lt hc hs
  rw [Option.some.inj (hread.symm.trans hcons)]
  exact List.cons_ne_nil x q'

/-- The decoder's `current` is not empty (10_state.md R26 (6)). -/
theorem DecUnit.OpenInv.current_ne_nil {W : Width} {d : DecUnit} (h : d.OpenInv W) {cur : SymSeq}
    (hcur : d.current = some cur) : cur ≠ [] := by
  obtain ⟨p, hp, hread⟩ := h.current cur hcur
  exact h.learned.ne_nil_of_read hread hp

/-! ## Commands complete in a good unit -/

/-- DEC_CODE of a first codeword completes (41_decoder.md R89). -/
theorem DecUnit.OpenInv.firstCode_completes {W : Width} {d : DecUnit} (h : d.OpenInv W) {c : Nat} (hs : c ≠ 256) :
    ∃ d', d.firstCode c = .ok d' := by
  unfold DecUnit.firstCode
  split_ifs with hc
  · exact ⟨_, rfl⟩
  · obtain ⟨x, q, hread⟩ := h.learned.read_lt (lt_of_lt_of_le (Nat.lt_of_not_le hc) h.learned.counter.1) hs
    simp [hread]

/-- DEC_CODE of a later codeword completes: KNOWN and SELF accept a sequence that is not empty (41_decoder.md R89). -/
theorem DecUnit.OpenInv.laterCode_completes {W : Width} {d : DecUnit} (h : d.OpenInv W) {c : Nat} (hs : c ≠ 256)
    {cur : SymSeq} (hcur : d.current = some cur) : ∃ d', d.laterCode W c cur = .ok d' := by
  unfold DecUnit.laterCode
  rcases dynClass_cases d.highestCode c with ⟨hc, hk⟩ | ⟨-, hk⟩ | ⟨-, hk⟩
  · obtain ⟨x, q, hread⟩ := h.learned.read_lt hc hs
    simp [hk, hread, DecUnit.accept_cons]
  · obtain ⟨x, q, rfl⟩ := List.exists_cons_of_ne_nil (h.current_ne_nil hcur)
    simp [hk, DecUnit.accept_cons]
  · simp [hk]

/-- DEC_CODE in ACTIVE completes (41_decoder.md R89; log 5). -/
theorem DecUnit.OpenInv.takeCode_completes {W : Width} {d : DecUnit} (h : d.OpenInv W) (c : Nat) :
    ∃ d', d.takeCode c W = .ok d' := by
  unfold DecUnit.takeCode
  split_ifs with hs hrange
  · exact ⟨_, rfl⟩
  · exact ⟨_, rfl⟩
  · cases hcur : d.current with
    | none => exact h.firstCode_completes hs
    | some cur => exact h.laterCode_completes hs hcur

/-- A dispatched command completes when its effect in ACTIVE does (60_exceptions.md R104). -/
theorem EncUnit.dispatch_completes {f : EncUnit → Except Fault EncUnit} {e : EncUnit}
    (hf : e.state = .active → ∃ e', f e = .ok e') : ∃ e', e.dispatch f = .ok e' := by
  rcases e.dispatch_cases f with ⟨-, h⟩ | ⟨-, h⟩ | ⟨hact, h⟩
  · exact ⟨_, h⟩
  · exact ⟨_, h⟩
  · rw [h]; exact hf hact

/-- A dispatched command completes when its effect in ACTIVE does (60_exceptions.md R104). -/
theorem DecUnit.dispatch_completes {f : DecUnit → Except Fault DecUnit} {d : DecUnit}
    (hf : d.state = .active → ∃ d', f d = .ok d') : ∃ d', d.dispatch f = .ok d' := by
  rcases d.dispatch_cases f with ⟨-, h⟩ | ⟨-, h⟩ | ⟨hact, h⟩
  · exact ⟨_, h⟩
  · exact ⟨_, h⟩
  · rw [h]; exact hf hact

theorem State.onEnc_completes {f : Width → EncUnit → Except Fault EncUnit} {s : State}
    (hf : ∃ e, f s.param s.enc = .ok e) : ∃ t, s.onEnc f = .next t :=
  hf.elim fun _ he => ⟨_, State.onEnc_ok he⟩

theorem State.onDec_completes {f : Width → DecUnit → Except Fault DecUnit} {s : State}
    (hf : ∃ d, f s.param s.dec = .ok d) : ∃ t, s.onDec f = .next t :=
  hf.elim fun _ hd => ⟨_, State.onDec_ok hd⟩

/-- From a good state every command gives a next state: the model's faults are not reached (00_scope.md R15). -/
theorem exec_completes (i : Instr) {s : State} (hs : s.Inv) : ∃ t, exec i s = .next t := by
  cases i with
  | encInit => exact ⟨_, rfl⟩
  | encSym sym =>
    rw [exec_encSym]
    exact State.onEnc_completes (EncUnit.dispatch_completes fun hact =>
      EncUnit.takeSymbol_completes (hs.enc.opened (.inl hact)).pending)
  | encEnd =>
    rw [exec_encEnd]
    exact State.onEnc_completes (EncUnit.dispatch_completes fun _ => ⟨_, rfl⟩)
  | decInit => exact ⟨_, rfl⟩
  | decCode code =>
    rw [exec_decCode]
    exact State.onDec_completes (DecUnit.dispatch_completes fun hact =>
      (hs.dec.opened (.inl hact)).takeCode_completes code.toNat)
  | decEos =>
    rw [exec_decEos]
    exact State.onDec_completes (DecUnit.dispatch_completes fun _ => ⟨_, rfl⟩)

/-! ## Commands only append to their unit's output queue -/

theorem UnitCore.raiseError_out_prefix (p : UnitCore) (code : Status) : p.out <+: (p.raiseError code).out := by
  simp

theorem UnitCore.openStream_out_prefix (p : UnitCore) : p.out <+: p.openStream.out := by
  simp

theorem EncUnit.finish_out_prefix (e : EncUnit) : e.out <+: e.finish.out := by
  simp [EncUnit.finish_eq]

theorem EncUnit.takeSymbol_out_prefix {s : Symbol} {W : Width} {e e' : EncUnit} (h : e.takeSymbol s W = .ok e') :
    e.out <+: e'.out := by
  rcases EncUnit.takeSymbol_ok h with ⟨-, rfl⟩ | ⟨_, _, _, -, -, -, rfl⟩ |
    ⟨_, _, -, -, -, ⟨-, rfl⟩ | ⟨-, rfl⟩⟩
  · exact List.prefix_rfl
  · exact List.prefix_rfl
  · exact List.prefix_append _ _
  · exact List.prefix_append _ _

theorem DecUnit.takeCode_out_prefix {c : Nat} {W : Width} {d d' : DecUnit} (h : d.takeCode c W = .ok d') :
    d.out <+: d'.out := by
  rcases DecUnit.takeCode_ok h with ⟨-, rfl⟩ | ⟨-, -, rfl⟩ | ⟨-, -, -, -, rfl⟩ | ⟨-, -, _, -, rfl⟩ |
    ⟨_, _, _, _, -, -, -, -, -, ⟨-, rfl⟩ | ⟨-, rfl⟩⟩ | ⟨_, -, -, -, -, rfl⟩
  · exact List.prefix_append _ _
  · exact UnitCore.raiseError_out_prefix _ _
  · exact UnitCore.raiseError_out_prefix _ _
  · exact List.prefix_append _ _
  · exact List.prefix_append _ _
  · exact List.prefix_append _ _
  · exact UnitCore.raiseError_out_prefix _ _

/-- A dispatched command only appends when its effect in ACTIVE does (60_exceptions.md R104). -/
theorem EncUnit.dispatch_out_prefix {f : EncUnit → Except Fault EncUnit} {e e' : EncUnit}
    (hf : f e = .ok e' → e.out <+: e'.out) (h : e.dispatch f = .ok e') : e.out <+: e'.out := by
  rcases e.dispatch_cases f with ⟨-, hd⟩ | ⟨-, hd⟩ | ⟨-, hd⟩ <;> rw [hd] at h
  · cases h; exact List.prefix_rfl
  · cases h; exact UnitCore.raiseError_out_prefix _ _
  · exact hf h

/-- A dispatched command only appends when its effect in ACTIVE does (60_exceptions.md R104). -/
theorem DecUnit.dispatch_out_prefix {f : DecUnit → Except Fault DecUnit} {d d' : DecUnit}
    (hf : f d = .ok d' → d.out <+: d'.out) (h : d.dispatch f = .ok d') : d.out <+: d'.out := by
  rcases d.dispatch_cases f with ⟨-, hd⟩ | ⟨-, hd⟩ | ⟨-, hd⟩ <;> rw [hd] at h
  · cases h; exact List.prefix_rfl
  · cases h; exact UnitCore.raiseError_out_prefix _ _
  · exact hf h

theorem State.onEnc_out_prefix {f : Width → EncUnit → Except Fault EncUnit} {s t : State}
    (hf : ∀ e, f s.param s.enc = .ok e → s.enc.out <+: e.out) (h : s.onEnc f = .next t) :
    s.enc.out <+: t.enc.out := by
  obtain ⟨e, he, rfl⟩ := State.onEnc_next.1 h
  exact hf e he

theorem State.onDec_out_prefix {f : Width → DecUnit → Except Fault DecUnit} {s t : State}
    (hf : ∀ d, f s.param s.dec = .ok d → s.dec.out <+: d.out) (h : s.onDec f = .next t) :
    s.dec.out <+: t.dec.out := by
  obtain ⟨d, hd, rfl⟩ := State.onDec_next.1 h
  exact hf d hd

/-- A command appends zero or more words to its own unit's queue, in every state (00_scope.md R14, R15). -/
theorem exec_out_prefix {i : Instr} {s t : State} (h : exec i s = .next t) :
    (s.unitCore i.unit).out <+: (t.unitCore i.unit).out := by
  cases i with
  | encInit =>
    rw [exec_encInit] at h
    refine State.onEnc_out_prefix (fun e he => ?_) h
    cases he
    exact UnitCore.openStream_out_prefix _
  | encSym sym =>
    rw [exec_encSym] at h
    exact State.onEnc_out_prefix (fun _ => EncUnit.dispatch_out_prefix EncUnit.takeSymbol_out_prefix) h
  | encEnd =>
    rw [exec_encEnd] at h
    refine State.onEnc_out_prefix (fun _ => EncUnit.dispatch_out_prefix fun he => ?_) h
    cases he
    exact EncUnit.finish_out_prefix _
  | decInit =>
    rw [exec_decInit] at h
    refine State.onDec_out_prefix (fun d hd => ?_) h
    cases hd
    exact UnitCore.openStream_out_prefix _
  | decCode code =>
    rw [exec_decCode] at h
    exact State.onDec_out_prefix (fun _ => DecUnit.dispatch_out_prefix DecUnit.takeCode_out_prefix) h
  | decEos =>
    rw [exec_decEos] at h
    refine State.onDec_out_prefix (fun _ => DecUnit.dispatch_out_prefix fun hd => ?_) h
    cases hd
    exact UnitCore.raiseError_out_prefix _ _

/-- An illegal word appends at most a CLOSE word to its unit's queue (60_exceptions.md R96). -/
theorem State.illegalWord_out_prefix (s : State) (u : UnitId) :
    (s.unitCore u).out <+: ((s.illegalWord u).unitCore u).out := by
  cases u with
  | enc =>
    show s.enc.out <+: s.enc.illegalWord.out
    unfold EncUnit.illegalWord
    split_ifs
    · exact List.prefix_rfl
    · exact UnitCore.raiseError_out_prefix _ _
  | dec =>
    show s.dec.out <+: s.dec.illegalWord.out
    unfold DecUnit.illegalWord
    split_ifs
    · exact List.prefix_rfl
    · exact UnitCore.raiseError_out_prefix _ _

/-! ## Every command word -/

/-- Settles O40: a legal word runs a command, which completes in a good state and only appends to its unit's queue;
an illegal word always has its next state. -/
theorem everyCommandWordHasANextState : Obligations.EveryCommandWordHasANextState := by
  unfold Obligations.EveryCommandWordHasANextState
  intro s u cmd hs
  rcases runWord_cases u cmd s with ⟨i, hdec, hrun⟩ | ⟨_, -, hrun⟩
  · obtain ⟨t, ht⟩ := exec_completes i hs
    obtain ⟨ws, hws⟩ := exec_out_prefix ht
    rw [decode_ok_unit hdec] at hws
    exact ⟨t, ws, hrun.trans ht, hws.symm⟩
  · obtain ⟨ws, hws⟩ := s.illegalWord_out_prefix u
    exact ⟨_, ws, hrun, hws.symm⟩

end Sys2Proof.Machine
end

section
/-! Every step keeps the invariants of both units (10_state.md R25, R26): learning an entry keeps a dictionary good,
each operation of a unit keeps its record good, and so does every command, word and host action. -/

namespace Sys2Proof.Machine

/-! ## Learning an entry -/

/-- An entry has a code below the counter (10_state.md R25 (4), R26 (4)). -/
theorem Memory.Learned.lt_of_read {W : Width} {next : Nat} {m : Memory} (h : m.Learned W next) {c : Nat} {q : SymSeq}
    (hread : m.read c = some q) : c < next := by
  by_contra hge
  rw [h.free c (Nat.le_of_not_lt hge)] at hread
  cases hread

/-- The literals are the codes below 256 (10_state.md R25 (1), R26 (1)). -/
theorem Memory.Learned.read_literal {W : Width} {next : Nat} {m : Memory} (h : m.Learned W next) {c : Nat}
    (hc : c < 256) : m.read c = some [BitVec.ofNat 8 c] := by
  have hread := h.literals (BitVec.ofNat 8 c)
  rwa [BitVec.toNat_ofNat, Nat.mod_eq_of_lt hc] at hread

/-- An entry other than 256 leaves room for one more symbol in an entry at the counter (10_state.md R25 (4)). -/
theorem Memory.Learned.length_bounds {W : Width} {next : Nat} {m : Memory} (h : m.Learned W next) {c : Nat}
    {q : SymSeq} (hread : m.read c = some q) (hs : c ≠ 256) : 1 ≤ q.length ∧ q.length + 1 ≤ next - 255 := by
  have hlt := h.lt_of_read hread
  have hnext : 257 ≤ next := h.counter.1
  refine ⟨List.length_pos_of_ne_nil (h.ne_nil_of_read hread hs), ?_⟩
  rcases Nat.lt_or_gt_of_ne hs with hlit | hlearned
  · rw [Option.some.inj (hread.symm.trans (h.read_literal hlit)), List.length_singleton]
    omega
  · obtain ⟨q', hq', -, hlen⟩ := h.lengths c hlearned hlt
    rw [Option.some.inj (hread.symm.trans hq')]
    omega

/-- The free entry at the counter can learn a stored sequence extended by one symbol (10_state.md R25, R26;
40_encoder.md R81; 41_decoder.md R89). -/
theorem Memory.Learned.write {W : Width} {next : Nat} {m : Memory} (h : m.Learned W next) (hroom : next < W.ncodes)
    {p : Nat} {q : SymSeq} (hp : m.read p = some q) (hps : p ≠ 256) (x : Symbol) :
    (m.write next (some (q ++ [x]))).Learned W (next + 1) := by
  have hnext : 257 ≤ next := h.counter.1
  have hother {c : Nat} (hc : c ≠ next) : (m.write next (some (q ++ [x]))).read c = m.read c :=
    m.read_write_other _ hc
  exact
    { literals := fun s => by
        rw [hother (by have := s.isLt; omega)]
        exact h.literals s
      counter := ⟨Nat.le_succ_of_le hnext, hroom⟩
      lengths := fun c hc hlt => by
        rcases Nat.lt_succ_iff_lt_or_eq.1 hlt with hlt | rfl
        · rw [hother hlt.ne]
          exact h.lengths c hc hlt
        · obtain ⟨hpos, hlen⟩ := h.length_bounds hp hps
          exact ⟨_, m.read_write_same c _, by simpa using hpos, by simpa using hlen⟩
      free := fun c hc => by
        rw [hother (by omega)]
        exact h.free c (by omega)
      closed := fun c r hc hr => by
        by_cases hcn : c = next
        · subst hcn
          rw [m.read_write_same] at hr
          obtain rfl := Option.some.inj hr
          have hlt := h.lt_of_read hp
          exact ⟨p, hlt, hps, by rw [hother hlt.ne, hp, List.dropLast_concat]⟩
        · rw [hother hcn] at hr
          obtain ⟨p', hp', hs, hread⟩ := h.closed c r hc hr
          have := h.lt_of_read hr
          exact ⟨p', hp', hs, by rw [hother (by omega), hread]⟩ }

/-! ## Good dictionaries -/

/-- The encoder's dictionary, counter and pending match while a stream is open or ended: the clauses of
`EncUnit.Inv` that do not speak of the queue and the status. -/
structure EncUnit.GoodDict (W : Width) (e : EncUnit) : Prop where
  wf : e.dict.wf
  within : e.dict.within W.ncodes
  opened : e.OpenInv W

/-- The decoder's table, counter and `current` while a stream is open or ended: the clauses of `DecUnit.Inv` that do
not speak of the queue and the status. -/
structure DecUnit.GoodTable (W : Width) (d : DecUnit) : Prop where
  wf : d.table.wf
  within : d.table.within W.ncodes
  opened : d.OpenInv W

/-- Only the match may change where the dictionary stays. -/
theorem EncUnit.GoodDict.of_dict_eq {W : Width} {e e' : EncUnit} (h : e.GoodDict W) (hdict : e'.dict = e.dict)
    (hnext : e'.nextCode = e.nextCode) (hw : ∀ c, e'.w = some c → ∃ q, e.dict.read c = some q) :
    e'.GoodDict W where
  wf := hdict ▸ h.wf
  within := hdict ▸ h.within
  opened :=
    { learned := by rw [hdict, hnext]; exact h.opened.learned
      noSentinel := hdict ▸ h.opened.noSentinel
      unique := hdict ▸ h.opened.unique
      pending := hdict ▸ hw }

/-- Only `current` may change where the table stays. -/
theorem DecUnit.GoodTable.of_table_eq {W : Width} {d d' : DecUnit} (h : d.GoodTable W) (htable : d'.table = d.table)
    (hnext : d'.highestCode = d.highestCode)
    (hcur : ∀ q, d'.current = some q → ∃ p, p ≠ sentinel ∧ d.table.read p = some q) : d'.GoodTable W where
  wf := htable ▸ h.wf
  within := htable ▸ h.within
  opened :=
    { learned := by rw [htable, hnext]; exact h.opened.learned
      sentinelEmpty := htable ▸ h.opened.sentinelEmpty
      current := htable ▸ hcur }

theorem EncUnit.GoodDict.init (W : Width) (e : EncUnit) : e.init.GoodDict W :=
  ⟨freshDict_wf, freshDict_within W, e.init_openInv W⟩

theorem DecUnit.GoodTable.init (W : Width) (d : DecUnit) : d.init.GoodTable W :=
  ⟨freshTable_wf, freshTable_within W, d.init_openInv W⟩

/-- A match is pending on an entry other than 256 (10_state.md R25 (2)). -/
theorem EncUnit.OpenInv.ne_sentinel {W : Width} {e : EncUnit} (h : e.OpenInv W) {c : Nat} {q : SymSeq}
    (hread : e.dict.read c = some q) : c ≠ 256 := by
  rintro rfl
  cases h.noSentinel.symm.trans hread

/-- Learning a sequence that is stored nowhere, an entry extended by one symbol, and restarting with that symbol
(40_encoder.md R81). -/
theorem EncUnit.GoodDict.learn {W : Width} {e e' : EncUnit} (h : e.GoodDict W) {c : Nat} {q : SymSeq} {s : Symbol}
    (hread : e.dict.read c = some q) (hnew : e.dict.lookup (q ++ [s]) = none) (hroom : e.nextCode < W.ncodes)
    (hdict : e'.dict = e.dict.write e.nextCode (some (q ++ [s]))) (hnext : e'.nextCode = e.nextCode + 1)
    (hw : e'.w = some s.toNat) : e'.GoodDict W := by
  have hlearned := h.opened.learned.write hroom hread (h.opened.ne_sentinel hread) s
  have habsent := (Memory.lookup_eq_none_iff h.wf _).1 hnew
  have hother {c : Nat} (hc : c ≠ e.nextCode) : (e.dict.write e.nextCode (some (q ++ [s]))).read c = e.dict.read c :=
    e.dict.read_write_other _ hc
  have hcount : 257 ≤ e.nextCode := h.opened.learned.counter.1
  refine ⟨hdict ▸ Memory.wf_write h.wf _ _, hdict ▸ Memory.within_write h.within hroom _, ?_⟩
  exact
    { learned := by rw [hdict, hnext]; exact hlearned
      noSentinel := by
        rw [hdict, hother (by simp only [sentinel_eq]; omega)]
        exact h.opened.noSentinel
      unique := by
        rw [hdict]
        intro a b r ha hb
        by_cases haN : a = e.nextCode <;> by_cases hbN : b = e.nextCode
        · rw [haN, hbN]
        · rw [haN, e.dict.read_write_same] at ha
          rw [hother hbN, ← Option.some.inj ha] at hb
          exact absurd hb (habsent b)
        · rw [hbN, e.dict.read_write_same] at hb
          rw [hother haN, ← Option.some.inj hb] at ha
          exact absurd ha (habsent a)
        · rw [hother haN] at ha
          rw [hother hbN] at hb
          exact h.opened.unique a b r ha hb
      pending := fun c hc => by
        obtain rfl := Option.some.inj (hw.symm.trans hc)
        exact ⟨[s], by rw [hdict]; exact hlearned.literals s⟩ }

/-- Learning `current` extended by one symbol (41_decoder.md R89); the new `current` is an entry already stored or the
one learned. -/
theorem DecUnit.GoodTable.learn {W : Width} {d d' : DecUnit} (h : d.GoodTable W) {cur next : SymSeq} {x : Symbol}
    (hcur : d.current = some cur) (hroom : d.highestCode < W.ncodes)
    (htable : d'.table = d.table.write d.highestCode (some (cur ++ [x])))
    (hnext : d'.highestCode = d.highestCode + 1) (hcur' : d'.current = some next)
    (hstored : (∃ c, c ≠ sentinel ∧ d.table.read c = some next) ∨ next = cur ++ [x]) : d'.GoodTable W := by
  obtain ⟨p, hps, hp⟩ := h.opened.current cur hcur
  have hlearned := h.opened.learned
  have hcount : 257 ≤ d.highestCode := hlearned.counter.1
  refine ⟨htable ▸ Memory.wf_write h.wf _ _, htable ▸ Memory.within_write h.within hroom _, ?_⟩
  exact
    { learned := by rw [htable, hnext]; exact hlearned.write hroom hp hps x
      sentinelEmpty := by
        rw [htable, d.table.read_write_other _ (by simp only [sentinel_eq]; omega)]
        exact h.opened.sentinelEmpty
      current := fun q hq => by
        obtain rfl := Option.some.inj (hcur'.symm.trans hq)
        rw [htable]
        rcases hstored with ⟨c, hcs, hc⟩ | rfl
        · exact ⟨c, hcs, by rw [d.table.read_write_other _ (hlearned.lt_of_read hc).ne, hc]⟩
        · exact ⟨d.highestCode, by simp only [sentinel_eq]; omega, d.table.read_write_same _ _⟩ }

/-- ENC_SYM in ACTIVE keeps the dictionary good (40_encoder.md R81). -/
theorem EncUnit.GoodDict.takeSymbol {W : Width} {e e' : EncUnit} {s : Symbol} (h : e.GoodDict W)
    (ht : e.takeSymbol s W = .ok e') : e'.GoodDict W := by
  have hliteral (c : Nat) (hc : some s.toNat = some c) : ∃ q, e.dict.read c = some q :=
    ⟨[s], Option.some.inj hc ▸ h.opened.learned.literals s⟩
  rcases EncUnit.takeSymbol_ok ht with ⟨-, rfl⟩ | ⟨_, q, n, -, -, hfound, rfl⟩ |
    ⟨w, q, -, hread, hnew, ⟨hroom, rfl⟩ | ⟨-, rfl⟩⟩
  · exact h.of_dict_eq rfl rfl hliteral
  · exact h.of_dict_eq rfl rfl fun c hc => ⟨_, Option.some.inj hc ▸ Memory.read_of_lookup h.wf hfound⟩
  · exact h.learn hread hnew hroom rfl rfl rfl
  · exact h.of_dict_eq rfl rfl hliteral

/-! ## Status codes and queued words -/

theorem UnitCore.ErrInv.raiseError {p : UnitCore} {code : Status} (hok : code ≠ .ok) (haborted : code ≠ .aborted) :
    (p.raiseError code).ErrInv := by
  simp [UnitCore.ErrInv, hok, haborted]

theorem UnitCore.ErrInv.openStream (p : UnitCore) : p.openStream.ErrInv := by
  simp [UnitCore.ErrInv]

theorem UnitCore.ErrInv.done {p p' : UnitCore} (h : p.ErrInv) (hact : p.state = .active) (hstate : p'.state = .done)
    (herr : p'.err = p.err) : p'.ErrInv := by
  simpa [UnitCore.ErrInv, hact, hstate, herr] using h

theorem IsCloseWord.of_ne_sequence {st : Status} (h : st ≠ .sequence) : IsCloseWord (closeWord st) := ⟨st, h, rfl⟩

/-- The word that closes an open stream, if one is open, is a CLOSE word. -/
theorem isCloseWord_of_mem_closing {p : UnitCore} {st : Status} (hst : p.state = .active → st ≠ .sequence)
    {o : OutWord} (ho : o ∈ if p.state = .active then [closeWord st] else []) : IsCloseWord o := by
  split_ifs at ho with hact
  · rw [List.mem_singleton.1 ho]
    exact .of_ne_sequence (hst hact)
  · cases ho

theorem EncOutput.append {W : Width} {ws vs : List OutWord} (h : EncOutput W ws) (h' : EncOutput W vs) :
    EncOutput W (ws ++ vs) := List.forall_mem_append.2 ⟨h, h'⟩

theorem DecOutput.append {ws vs : List OutWord} (h : DecOutput ws) (h' : DecOutput vs) : DecOutput (ws ++ vs) :=
  List.forall_mem_append.2 ⟨h, h'⟩

theorem EncOutput.codeWord {W : Width} {c : Nat} (h : c < W.ncodes) : EncOutput W [codeWord c] :=
  List.forall_mem_singleton.2 (.inl ⟨c, h, rfl⟩)

theorem DecOutput.symWords (q : SymSeq) : DecOutput (q.map symWord) :=
  List.forall_mem_map.2 fun s _ => .inl ⟨s, rfl⟩

/-! ## The encoder's operations -/

/-- A record with a good dictionary is good when its match, status code and queue are. -/
theorem EncUnit.GoodDict.inv {W : Width} {e : EncUnit} (h : e.GoodDict W)
    (hpend : e.w.isSome = true → e.state = .active) (herr : e.toUnitCore.ErrInv) (hout : EncOutput W e.out) :
    e.Inv W where
  wf := h.wf
  within := h.within
  bound := h.opened.learned.counter.2
  opened _ := h.opened
  pendActive := hpend
  err := herr
  output := hout

theorem EncUnit.Inv.goodDict {W : Width} {e : EncUnit} (h : e.Inv W) (hst : e.state = .active ∨ e.state = .done) :
    e.GoodDict W := ⟨h.wf, h.within, h.opened hst⟩

theorem EncUnit.reset_inv (W : Width) : EncUnit.reset.Inv W where
  wf := List.Pairwise.nil
  within _ h := by cases h
  bound := Nat.zero_le _
  opened h := by rcases h with h | h <;> cases h
  pendActive h := by cases h
  err := by simp [UnitCore.ErrInv, EncUnit.reset]
  output _ h := by cases h

theorem EncUnit.Inv.init {W : Width} {e : EncUnit} (h : e.Inv W) : e.init.Inv W := by
  refine (EncUnit.GoodDict.init W e).inv (fun _ => rfl) (UnitCore.ErrInv.openStream _) ?_
  rw [EncUnit.init_core, UnitCore.openStream_out]
  exact h.output.append fun o ho => .inr (isCloseWord_of_mem_closing (fun _ => by decide) ho)

/-- The error action keeps an encoder good for the codes of 60_exceptions.md R95; SEQUENCE is not raised in ACTIVE. -/
theorem EncUnit.Inv.streamError {W : Width} {e : EncUnit} {code : Status} (h : e.Inv W) (hok : code ≠ .ok)
    (haborted : code ≠ .aborted) (hseq : e.state = .active → code ≠ .sequence) : (e.streamError code).Inv W where
  wf := h.wf
  within := h.within
  bound := h.bound
  opened := by simp
  pendActive := by simp
  err := UnitCore.ErrInv.raiseError hok haborted
  output := by
    rw [EncUnit.streamError_core, UnitCore.raiseError_out]
    exact h.output.append fun o ho => .inr (isCloseWord_of_mem_closing hseq ho)

theorem EncUnit.Inv.illegalWord {W : Width} {e : EncUnit} (h : e.Inv W) : e.illegalWord.Inv W := by
  unfold EncUnit.illegalWord
  split_ifs
  · exact h
  · exact h.streamError (by decide) (by decide) fun _ => by decide

/-- A dispatched command keeps an encoder good when its effect in ACTIVE does (60_exceptions.md R104). -/
theorem EncUnit.Inv.dispatch {W : Width} {e e' : EncUnit} {f : EncUnit → Except Fault EncUnit} (h : e.Inv W)
    (hf : e.state = .active → f e = .ok e' → e'.Inv W) (hd : e.dispatch f = .ok e') : e'.Inv W := by
  rcases e.dispatch_cases f with ⟨-, heq⟩ | ⟨hstate, heq⟩ | ⟨hact, heq⟩ <;> rw [heq] at hd
  · cases hd; exact h
  · cases hd
    refine h.streamError (by decide) (by decide) fun hact => ?_
    rcases hstate with hs | hs <;> cases hs.symm.trans hact
  · exact hf hact hd

/-- ENC_SYM in ACTIVE leaves the state and the status code, and emits at most the pending match (40_encoder.md
R81). -/
theorem EncUnit.takeSymbol_core {W : Width} {e e' : EncUnit} {s : Symbol} (ht : e.takeSymbol s W = .ok e') :
    e'.state = e.state ∧ e'.err = e.err ∧
      (e'.out = e.out ∨ ∃ w, e.w = some w ∧ e'.out = e.out ++ [codeWord w]) := by
  rcases EncUnit.takeSymbol_ok ht with ⟨-, rfl⟩ | ⟨_, _, _, -, -, -, rfl⟩ |
    ⟨w, _, hw, -, -, ⟨-, rfl⟩ | ⟨-, rfl⟩⟩
  · exact ⟨rfl, rfl, .inl rfl⟩
  · exact ⟨rfl, rfl, .inl rfl⟩
  · exact ⟨rfl, rfl, .inr ⟨w, hw, rfl⟩⟩
  · exact ⟨rfl, rfl, .inr ⟨w, hw, rfl⟩⟩

/-- The pending match's code is in the code space (30_encoding.md R71). -/
theorem EncUnit.GoodDict.pending_lt {W : Width} {e : EncUnit} (h : e.GoodDict W) {w : Nat} (hw : e.w = some w) :
    w < W.ncodes := by
  obtain ⟨q, hq⟩ := h.opened.pending w hw
  exact Memory.lt_of_read h.wf h.within hq

theorem EncUnit.Inv.takeSymbol {W : Width} {e e' : EncUnit} {s : Symbol} (h : e.Inv W) (hact : e.state = .active)
    (ht : e.takeSymbol s W = .ok e') : e'.Inv W := by
  have hgood := h.goodDict (.inl hact)
  obtain ⟨hstate, herr, hout⟩ := EncUnit.takeSymbol_core ht
  refine (hgood.takeSymbol ht).inv (fun _ => hstate.trans hact) ?_ ?_
  · unfold UnitCore.ErrInv
    rw [hstate, herr]
    exact h.err
  · rcases hout with heq | ⟨w, hw, heq⟩ <;> rw [heq]
    · exact h.output
    · exact h.output.append (.codeWord (hgood.pending_lt hw))

theorem EncUnit.Inv.finish {W : Width} {e : EncUnit} (h : e.Inv W) (hact : e.state = .active) : e.finish.Inv W := by
  have hgood := h.goodDict (.inl hact)
  rw [EncUnit.finish_eq]
  refine EncUnit.GoodDict.inv (hgood.of_dict_eq rfl rfl fun c hc => by cases hc) (fun hw => by cases hw)
    (h.err.done hact rfl rfl) ?_
  have hpending : EncOutput W (e.w.toList.map Machine.codeWord) := by
    intro o ho
    obtain ⟨w, hw, rfl⟩ := List.mem_map.1 ho
    exact .inl ⟨w, hgood.pending_lt (Option.mem_toList.1 hw), rfl⟩
  have hsentinel : 256 < W.ncodes := by have := W.ncodes_range; omega
  have hclose : EncOutput W [closeWord .ok] := List.forall_mem_singleton.2 (.inr (.of_ne_sequence (by decide)))
  exact (h.output.append hpending).append ((EncOutput.codeWord hsentinel).append hclose)

/-- Taking a word leaves a good encoder good (20_memory.md R55). -/
theorem EncUnit.Inv.take {W : Width} {e : EncUnit} (h : e.Inv W) : ({ e with out := e.out.tail } : EncUnit).Inv W :=
  { h with
    opened := fun hst =>
      have hgood := h.goodDict hst
      (hgood.of_dict_eq (e' := { e with out := e.out.tail }) rfl rfl hgood.opened.pending).opened
    output := fun o ho => h.output o (List.mem_of_mem_tail ho) }

/-! ## The decoder's operations -/

/-- A record with a good table is good when `current`, its status code and its queue are. -/
theorem DecUnit.GoodTable.inv {W : Width} {d : DecUnit} (h : d.GoodTable W)
    (hpend : d.current.isSome = true → d.state = .active) (herr : d.toUnitCore.ErrInv) (hout : DecOutput d.out) :
    d.Inv W where
  wf := h.wf
  within := h.within
  bound := h.opened.learned.counter.2
  opened _ := h.opened
  pendActive := hpend
  err := herr
  output := hout

theorem DecUnit.Inv.goodTable {W : Width} {d : DecUnit} (h : d.Inv W) (hst : d.state = .active ∨ d.state = .done) :
    d.GoodTable W := ⟨h.wf, h.within, h.opened hst⟩

theorem DecUnit.reset_inv (W : Width) : DecUnit.reset.Inv W where
  wf := List.Pairwise.nil
  within _ h := by cases h
  bound := Nat.zero_le _
  opened h := by rcases h with h | h <;> cases h
  pendActive h := by cases h
  err := by simp [UnitCore.ErrInv, DecUnit.reset]
  output _ h := by cases h

theorem DecUnit.Inv.init {W : Width} {d : DecUnit} (h : d.Inv W) : d.init.Inv W := by
  refine (DecUnit.GoodTable.init W d).inv (fun _ => rfl) (UnitCore.ErrInv.openStream _) ?_
  rw [DecUnit.init_core, UnitCore.openStream_out]
  exact h.output.append fun o ho => .inr (isCloseWord_of_mem_closing (fun _ => by decide) ho)

/-- The error action keeps a decoder good for the codes of 60_exceptions.md R95; SEQUENCE is not raised in ACTIVE. -/
theorem DecUnit.Inv.streamError {W : Width} {d : DecUnit} {code : Status} (h : d.Inv W) (hok : code ≠ .ok)
    (haborted : code ≠ .aborted) (hseq : d.state = .active → code ≠ .sequence) : (d.streamError code).Inv W where
  wf := h.wf
  within := h.within
  bound := h.bound
  opened := by simp
  pendActive := by simp
  err := UnitCore.ErrInv.raiseError hok haborted
  output := by
    rw [DecUnit.streamError_core, UnitCore.raiseError_out]
    exact h.output.append fun o ho => .inr (isCloseWord_of_mem_closing hseq ho)

theorem DecUnit.Inv.illegalWord {W : Width} {d : DecUnit} (h : d.Inv W) : d.illegalWord.Inv W := by
  unfold DecUnit.illegalWord
  split_ifs
  · exact h
  · exact h.streamError (by decide) (by decide) fun _ => by decide

/-- A dispatched command keeps a decoder good when its effect in ACTIVE does (60_exceptions.md R104). -/
theorem DecUnit.Inv.dispatch {W : Width} {d d' : DecUnit} {f : DecUnit → Except Fault DecUnit} (h : d.Inv W)
    (hf : d.state = .active → f d = .ok d' → d'.Inv W) (hd : d.dispatch f = .ok d') : d'.Inv W := by
  rcases d.dispatch_cases f with ⟨-, heq⟩ | ⟨hidle, heq⟩ | ⟨hact, heq⟩ <;> rw [heq] at hd
  · cases hd; exact h
  · cases hd
    exact h.streamError (by decide) (by decide) fun hact => by cases hidle.symm.trans hact
  · exact hf hact hd

theorem DecUnit.Inv.finish {W : Width} {d : DecUnit} (h : d.Inv W) (hact : d.state = .active) : d.finish.Inv W := by
  rw [DecUnit.finish_eq]
  refine DecUnit.GoodTable.inv ((h.goodTable (.inl hact)).of_table_eq rfl rfl fun q hq => by cases hq)
    (fun hc => by cases hc) (h.err.done hact rfl rfl) (h.output.append ?_)
  exact List.forall_mem_singleton.2 (.inr (.of_ne_sequence (by decide)))

/-- Emitting a sequence in ACTIVE keeps a decoder good when the table it leaves is good. -/
theorem DecUnit.Inv.emit_symbols {W : Width} {d d' : DecUnit} {q : SymSeq} (h : d.Inv W) (hact : d.state = .active)
    (hgood : d'.GoodTable W) (hcore : d'.toUnitCore = { d.toUnitCore with out := d.out ++ q.map symWord }) :
    d'.Inv W := by
  refine hgood.inv (fun _ => by rw [hcore]; exact hact) ?_ ?_ <;> rw [hcore]
  · exact h.err
  · exact h.output.append (.symWords q)

theorem DecUnit.Inv.takeCode {W : Width} {d d' : DecUnit} {c : Nat} (h : d.Inv W) (hact : d.state = .active)
    (ht : d.takeCode c W = .ok d') : d'.Inv W := by
  have hgood := h.goodTable (.inl hact)
  rcases DecUnit.takeCode_ok ht with ⟨-, rfl⟩ | ⟨-, -, rfl⟩ | ⟨-, -, -, -, rfl⟩ | ⟨hc, -, q, hread, rfl⟩ |
    ⟨cur, next, x, q, hc, hlt, hcur, -, hkind, hcase⟩ | ⟨_, -, -, -, -, rfl⟩
  · exact h.finish hact
  · exact h.streamError (by decide) (by decide) fun _ => by decide
  · exact h.streamError (by decide) (by decide) fun _ => by decide
  · refine h.emit_symbols hact (hgood.of_table_eq rfl rfl fun r hr => ?_) rfl
    obtain rfl := Option.some.inj hr
    exact ⟨c, hc.ne, hread⟩
  · rcases hcase with ⟨hroom, rfl⟩ | ⟨hfull, rfl⟩
    · refine h.emit_symbols hact (hgood.learn hcur hroom rfl rfl rfl ?_) rfl
      exact hkind.imp (fun hknown => ⟨c, hc, hknown.2⟩) fun hself => hself.2.2
    · refine h.emit_symbols hact (hgood.of_table_eq rfl rfl fun r hr => ?_) rfl
      obtain rfl := Option.some.inj hr
      rcases hkind with ⟨-, hread⟩ | ⟨hself, -, -⟩
      · exact ⟨c, hc, hread⟩
      · omega
  · exact h.streamError (by decide) (by decide) fun _ => by decide

/-- Taking a word leaves a good decoder good (20_memory.md R55). -/
theorem DecUnit.Inv.take {W : Width} {d : DecUnit} (h : d.Inv W) : ({ d with out := d.out.tail } : DecUnit).Inv W :=
  { h with
    opened := fun hst =>
      have hgood := h.goodTable hst
      (hgood.of_table_eq (d' := { d with out := d.out.tail }) rfl rfl hgood.opened.current).opened
    output := fun o ho => h.output o (List.mem_of_mem_tail ho) }

/-! ## Commands, words and host actions -/

theorem State.Inv.onEnc {f : Width → EncUnit → Except Fault EncUnit} {s t : State} (h : s.Inv)
    (hf : ∀ e, f s.param s.enc = .ok e → e.Inv s.param) (ht : s.onEnc f = .next t) : t.Inv := by
  obtain ⟨e, he, rfl⟩ := State.onEnc_next.1 ht
  exact ⟨hf e he, h.dec⟩

theorem State.Inv.onDec {f : Width → DecUnit → Except Fault DecUnit} {s t : State} (h : s.Inv)
    (hf : ∀ d, f s.param s.dec = .ok d → d.Inv s.param) (ht : s.onDec f = .next t) : t.Inv := by
  obtain ⟨d, hd, rfl⟩ := State.onDec_next.1 ht
  exact ⟨h.enc, hf d hd⟩

/-- Every command keeps the state good. -/
theorem State.Inv.exec {i : Instr} {s t : State} (h : s.Inv) (ht : exec i s = .next t) : t.Inv := by
  cases i with
  | encInit =>
    rw [exec_encInit] at ht
    refine h.onEnc (fun e he => ?_) ht
    cases he
    exact h.enc.init
  | encSym sym =>
    rw [exec_encSym] at ht
    exact h.onEnc (fun _ => h.enc.dispatch h.enc.takeSymbol) ht
  | encEnd =>
    rw [exec_encEnd] at ht
    refine h.onEnc (fun _ => h.enc.dispatch fun hact he => ?_) ht
    cases he
    exact h.enc.finish hact
  | decInit =>
    rw [exec_decInit] at ht
    refine h.onDec (fun d hd => ?_) ht
    cases hd
    exact h.dec.init
  | decCode code =>
    rw [exec_decCode] at ht
    exact h.onDec (fun _ => h.dec.dispatch h.dec.takeCode) ht
  | decEos =>
    rw [exec_decEos] at ht
    refine h.onDec (fun _ => h.dec.dispatch fun _ hd => ?_) ht
    cases hd
    exact h.dec.streamError (by decide) (by decide) fun _ => by decide

theorem State.Inv.illegalWord {s : State} (h : s.Inv) (u : UnitId) : (s.illegalWord u).Inv := by
  cases u with
  | enc => exact ⟨h.enc.illegalWord, h.dec⟩
  | dec => exact ⟨h.enc, h.dec.illegalWord⟩

theorem State.Inv.takeWord {s : State} (h : s.Inv) (u : UnitId) : (s.takeWord u).Inv := by
  cases u with
  | enc => exact ⟨h.enc.take, h.dec⟩
  | dec => exact ⟨h.enc, h.dec.take⟩

theorem State.Inv.hardReset (s : State) : s.hardReset.Inv :=
  ⟨EncUnit.reset_inv s.param, DecUnit.reset_inv s.param⟩

theorem State.Inv.runWord {s t : State} {u : UnitId} {cmd : CmdWord} (h : s.Inv) (ht : runWord u cmd s = .next t) :
    t.Inv := by
  rcases runWord_cases u cmd s with ⟨i, -, hrun⟩ | ⟨_, -, hrun⟩ <;> rw [hrun] at ht
  · exact h.exec ht
  · cases ht
    exact h.illegalWord u

/-- Settles O42: by what a step can be, an action of the host on a good state gives a good state. -/
theorem everyStepKeepsGood : Obligations.EveryStepKeepsGood := by
  unfold Obligations.EveryStepKeepsGood
  intro s t hs ht
  have hrest (rest : List HostAction) : ({ s with host := rest } : State).Inv := ⟨hs.enc, hs.dec⟩
  rcases step_cases s with ⟨-, heq⟩ | ⟨u, cmd, rest, -, heq⟩ | ⟨u, rest, -, heq⟩ | ⟨rest, -, heq⟩ <;> rw [heq] at ht
  · cases ht
    exact hs
  · exact (hrest rest).runWord ht
  · cases ht
    exact (hrest rest).takeWord u
  · cases ht
    exact State.Inv.hardReset _

/-- Settles O41: both units' records after reset hold no stream, and are good for every width. -/
theorem resetIsGood : Obligations.ResetIsGood := by
  unfold Obligations.ResetIsGood
  exact ⟨EncUnit.reset_inv _, DecUnit.reset_inv _⟩

end Sys2Proof.Machine
end


section
/-! The registers (10_state.md R30 to R36): each field of a STATUS word, PARAM, which no step changes, and what the
registers read after reset. -/

namespace Sys2Proof.Machine

/-! ## The fields of a STATUS word -/

section StatusFields

variable (W : Width) (next : Nat) (err : Status) (pend : Bool) (state : UnitState)

/-- The bits of a STATUS word below the reserved ones are FULL, ERR, PEND and STATE. -/
theorem statusWord_extract_low {start len : Nat} (h : start + len ≤ 9) :
    (statusWord W next err pend state).extractLsb' start len =
      (BitVec.ofBool (fullFlag W next) ++ (err.bits ++ (BitVec.ofBool pend ++ state.bits))).extractLsb' start len :=
  (BitVec.extractLsb'_append_eq_of_add_le (v := 3) (w := 29) (by omega)).trans <|
  (BitVec.extractLsb'_append_eq_of_add_le (v := 13) (w := 16) (by omega)).trans <|
  BitVec.extractLsb'_append_eq_of_add_le (v := 7) (w := 9) h

@[simp] theorem statusWord_state : (statusWord W next err pend state).extractLsb' 0 3 = state.bits := by
  rw [statusWord_extract_low _ _ _ _ _ (by decide), BitVec.extractLsb'_append_eq_of_add_le (by decide),
    BitVec.extractLsb'_append_eq_of_add_le (by decide), BitVec.extractLsb'_append_eq_right]

@[simp] theorem statusWord_pend : (statusWord W next err pend state).getLsbD 3 = pend := by
  have hbit := statusWord_extract_low W next err pend state (start := 3) (len := 1) (by decide)
  rw [BitVec.extractLsb'_append_eq_of_add_le (by decide), BitVec.extractLsb'_append_eq_of_add_le (by decide),
    BitVec.extractLsb'_append_eq_left] at hbit
  simpa using congrArg (BitVec.getLsbD · 0) hbit

@[simp] theorem statusWord_err : (statusWord W next err pend state).extractLsb' 4 4 = err.bits := by
  rw [statusWord_extract_low _ _ _ _ _ (by decide), BitVec.extractLsb'_append_eq_of_add_le (by decide),
    BitVec.extractLsb'_append_eq_left]

@[simp] theorem statusWord_full : (statusWord W next err pend state).getLsbD 8 = fullFlag W next := by
  have hbit := statusWord_extract_low W next err pend state (start := 8) (len := 1) (by decide)
  rw [BitVec.extractLsb'_append_eq_left] at hbit
  simpa using congrArg (BitVec.getLsbD · 0) hbit

@[simp] theorem statusWord_reserved : (statusWord W next err pend state).extractLsb' 9 7 = 0#7 :=
  (BitVec.extractLsb'_append_eq_of_add_le (v := 3) (w := 29) (by decide)).trans <|
  (BitVec.extractLsb'_append_eq_of_add_le (v := 13) (w := 16) (by decide)).trans
  BitVec.extractLsb'_append_eq_left

@[simp] theorem statusWord_next : (statusWord W next err pend state).extractLsb' 16 13 = BitVec.ofNat 13 next :=
  (BitVec.extractLsb'_append_eq_of_add_le (v := 3) (w := 29) (by decide)).trans BitVec.extractLsb'_append_eq_left

@[simp] theorem statusWord_reserved_top : (statusWord W next err pend state).extractLsb' 29 3 = 0#3 :=
  BitVec.extractLsb'_append_eq_left

end StatusFields

/-- The numbers of the unit states (10_state.md R17). -/
theorem UnitState.bits_listed (state : UnitState) :
    (state, state.bits) ∈ [(UnitState.idle, 0#3), (.active, 1#3), (.done, 2#3), (.error, 3#3)] := by
  cases state <;> decide

/-- The numbers of the status codes (60_exceptions.md R95). -/
theorem Status.bits_listed (err : Status) :
    (err, err.bits) ∈
      [(Status.ok, 0#4), (.illegalCmd, 1#4), (.sequence, 2#4), (.corruptHigh, 3#4), (.corruptFirst, 4#4),
        (.corruptTruncated, 5#4), (.corruptRange, 6#4), (.aborted, 7#4)] := by
  cases err <;> decide

/-- FULL is set exactly at `2^W` (10_state.md R33). -/
theorem fullFlag_eq_true_iff (W : Width) (next : Nat) : fullFlag W next = true ↔ next = W.ncodes := by
  simp [fullFlag]

/-- PEND of ENC_STATUS is set exactly when a match is pending (10_state.md R31). -/
theorem EncUnit.pend_eq_true_iff (e : EncUnit) : e.pend = true ↔ e.w ≠ none := Option.isSome_iff_ne_none

/-- PEND of DEC_STATUS is set exactly when `current` is present (10_state.md R31). -/
theorem DecUnit.pend_eq_true_iff (d : DecUnit) : d.pend = true ↔ d.current ≠ none := Option.isSome_iff_ne_none

/-- Settles O34: both registers are STATUS words of their unit's fields, read field by field. -/
theorem statusRegisterLayout : Obligations.StatusRegisterLayout := by
  unfold Obligations.StatusRegisterLayout State.encStatus State.decStatus
  intro s
  simp only [statusWord_state, statusWord_pend, statusWord_err, statusWord_full, statusWord_reserved,
    statusWord_next, statusWord_reserved_top, fullFlag_eq_true_iff, and_true]
  exact ⟨⟨s.enc.state.bits_listed, s.enc.pend_eq_true_iff, s.enc.err.bits_listed⟩,
    ⟨s.dec.state.bits_listed, s.dec.pend_eq_true_iff, s.dec.err.bits_listed⟩⟩

/-! ## PARAM -/

theorem State.onEnc_param {f : Width → EncUnit → Except Fault EncUnit} {s t : State} (h : s.onEnc f = .next t) :
    t.param = s.param := by
  obtain ⟨_, -, rfl⟩ := State.onEnc_next.1 h
  rfl

theorem State.onDec_param {f : Width → DecUnit → Except Fault DecUnit} {s t : State} (h : s.onDec f = .next t) :
    t.param = s.param := by
  obtain ⟨_, -, rfl⟩ := State.onDec_next.1 h
  rfl

theorem exec_param {i : Instr} {s t : State} (h : exec i s = .next t) : t.param = s.param := by
  cases i with
  | encInit => exact State.onEnc_param ((exec_encInit s).symm.trans h)
  | encSym sym => exact State.onEnc_param ((exec_encSym sym s).symm.trans h)
  | encEnd => exact State.onEnc_param ((exec_encEnd s).symm.trans h)
  | decInit => exact State.onDec_param ((exec_decInit s).symm.trans h)
  | decCode code => exact State.onDec_param ((exec_decCode code s).symm.trans h)
  | decEos => exact State.onDec_param ((exec_decEos s).symm.trans h)

theorem runWord_param {u : UnitId} {cmd : CmdWord} {s t : State} (h : runWord u cmd s = .next t) :
    t.param = s.param := by
  rcases runWord_cases u cmd s with ⟨i, -, hrun⟩ | ⟨_, -, hrun⟩ <;> rw [hrun] at h
  · exact exec_param h
  · cases h
    exact s.illegalWord_param u

/-- No step changes the width (10_state.md R36). -/
theorem step_param {s t : State} (h : step s = .next t) : t.param = s.param := by
  rcases step_cases s with ⟨-, heq⟩ | ⟨_, _, _, -, heq⟩ | ⟨u, _, -, heq⟩ | ⟨_, -, heq⟩ <;> rw [heq] at h
  · cases h
    rfl
  · exact (runWord_param h :)
  · cases h
    exact State.takeWord_param _ u
  · cases h
    rfl

/-- PARAM's low five bits are the width, which fits them (10_state.md R36). -/
theorem State.paramWord_width (s : State) : (s.paramWord.extractLsb' 0 5).toNat = s.param.bits := by
  have hfield : s.paramWord.extractLsb' 0 5 = BitVec.ofNat 5 s.param.bits :=
    BitVec.extractLsb'_append_eq_right (w := 27)
  have hrange := s.param.bits_range
  rw [hfield, BitVec.toNat_ofNat, Nat.mod_eq_of_lt (by omega)]

/-- PARAM's other bits read zero (10_state.md R36). -/
theorem State.paramWord_reserved (s : State) : s.paramWord.extractLsb' 5 27 = 0#27 :=
  BitVec.extractLsb'_append_eq_left

/-- Settles O36: PARAM is a word of the width alone, and no step changes the width. -/
theorem paramNeverChanges : Obligations.ParamNeverChanges := by
  unfold Obligations.ParamNeverChanges
  refine ⟨by decide, fun s => ⟨s.paramWord_width, s.paramWord_reserved⟩, fun s t h => ?_⟩
  show t.paramWord = s.paramWord
  rw [State.paramWord, step_param h, State.paramWord]

/-! ## Reset -/

/-- Settles O1: the reset column of 10_state.md R38 and what the three registers read then. -/
theorem resetState : Obligations.ResetState := by
  unfold Obligations.ResetState
  decide

end Sys2Proof.Machine
end


section
/-! The contents of a closed dictionary cannot be told from outside (10_state.md R38; 20_memory.md R61). A command
reads a unit's dictionary in ACTIVE only, where two records that are alike are equal; every other operation answers
records that are alike with records that are alike. -/

namespace Sys2Proof.Machine

/-! ## Records that are alike -/

theorem EncUnit.Alike.refl (e : EncUnit) : e.Alike e := ⟨rfl, rfl, rfl, fun _ => rfl⟩

theorem DecUnit.Alike.refl (d : DecUnit) : d.Alike d := ⟨rfl, rfl, rfl, fun _ => rfl⟩

theorem EncUnit.Alike.state_eq {e e' : EncUnit} (h : e.Alike e') : e.state = e'.state := congrArg UnitCore.state h.1

theorem DecUnit.Alike.state_eq {d d' : DecUnit} (h : d.Alike d') : d.state = d'.state := congrArg UnitCore.state h.1

/-- With a stream open the dictionary can be told. -/
theorem EncUnit.Alike.eq_of_active {e e' : EncUnit} (h : e.Alike e') (hact : e.state = .active) : e = e' := by
  obtain ⟨hcore, hnext, hw, hdict⟩ := h
  cases e
  cases e'
  simp_all

/-- With a stream open the table can be told. -/
theorem DecUnit.Alike.eq_of_active {d d' : DecUnit} (h : d.Alike d') (hact : d.state = .active) : d = d' := by
  obtain ⟨hcore, hnext, hcur, htable⟩ := h
  cases d
  cases d'
  simp_all

theorem EncUnit.Alike.init {e e' : EncUnit} (h : e.Alike e') : e.init.Alike e'.init :=
  ⟨congrArg UnitCore.openStream h.1, rfl, rfl, fun _ => rfl⟩

theorem DecUnit.Alike.init {d d' : DecUnit} (h : d.Alike d') : d.init.Alike d'.init :=
  ⟨congrArg UnitCore.openStream h.1, rfl, rfl, fun _ => rfl⟩

theorem EncUnit.Alike.streamError {e e' : EncUnit} (h : e.Alike e') (code : Status) :
    (e.streamError code).Alike (e'.streamError code) :=
  ⟨congrArg (UnitCore.raiseError code) h.1, h.2.1, rfl, fun hact => by cases hact⟩

theorem DecUnit.Alike.streamError {d d' : DecUnit} (h : d.Alike d') (code : Status) :
    (d.streamError code).Alike (d'.streamError code) :=
  ⟨congrArg (UnitCore.raiseError code) h.1, h.2.1, rfl, fun hact => by cases hact⟩

theorem EncUnit.Alike.illegalWord {e e' : EncUnit} (h : e.Alike e') : e.illegalWord.Alike e'.illegalWord := by
  unfold EncUnit.illegalWord
  rw [← h.state_eq]
  split_ifs
  · exact h
  · exact h.streamError _

theorem DecUnit.Alike.illegalWord {d d' : DecUnit} (h : d.Alike d') : d.illegalWord.Alike d'.illegalWord := by
  unfold DecUnit.illegalWord
  rw [← h.state_eq]
  split_ifs
  · exact h
  · exact h.streamError _

/-- Taking a word from the queues, which are equal, changes nothing else. -/
theorem EncUnit.Alike.take {e e' : EncUnit} (h : e.Alike e') :
    ({ e with out := e.out.tail } : EncUnit).Alike { e' with out := e'.out.tail } :=
  ⟨congrArg (fun p : UnitCore => { p with out := p.out.tail }) h.1, h.2⟩

/-- Taking a word from the queues, which are equal, changes nothing else. -/
theorem DecUnit.Alike.take {d d' : DecUnit} (h : d.Alike d') :
    ({ d with out := d.out.tail } : DecUnit).Alike { d' with out := d'.out.tail } :=
  ⟨congrArg (fun p : UnitCore => { p with out := p.out.tail }) h.1, h.2⟩

/-! ## Results and outcomes that are alike -/

/-- Two results of a unit's operation: the same fault, or records in the relation. -/
def ResultsAlike {α : Type} (R : α → α → Prop) (x y : Except Fault α) : Prop :=
  (∃ a b, x = .ok a ∧ y = .ok b ∧ R a b) ∨ ∃ r, x = .error r ∧ y = .error r

/-- Two outcomes of a step: the same fault, or states that are alike. -/
def OutcomesAlike (x y : Host.Outcome State Fault Refusal) : Prop :=
  (∃ t t', x = .next t ∧ y = .next t' ∧ t.Alike t') ∨ ∃ r, x = .fault r ∧ y = .fault r

theorem ResultsAlike.ok {α : Type} {R : α → α → Prop} {a b : α} (h : R a b) : ResultsAlike R (.ok a) (.ok b) :=
  .inl ⟨a, b, rfl, rfl, h⟩

theorem ResultsAlike.refl {α : Type} {R : α → α → Prop} (hR : ∀ a, R a a) (x : Except Fault α) :
    ResultsAlike R x x := by
  cases x with
  | ok a => exact .ok (hR a)
  | error r => exact .inr ⟨r, rfl, rfl⟩

theorem OutcomesAlike.next {t t' : State} (h : t.Alike t') : OutcomesAlike (.next t) (.next t') :=
  .inl ⟨t, t', rfl, rfl, h⟩

/-- A dispatched command performs its effect on equal records only (60_exceptions.md R104). -/
theorem EncUnit.Alike.dispatch {e e' : EncUnit} (h : e.Alike e') (f : EncUnit → Except Fault EncUnit) :
    ResultsAlike EncUnit.Alike (e.dispatch f) (e'.dispatch f) := by
  unfold EncUnit.dispatch
  rw [← h.state_eq]
  cases hstate : e.state with
  | error => exact .ok h
  | idle => exact .ok (h.streamError _)
  | done => exact .ok (h.streamError _)
  | active => exact h.eq_of_active hstate ▸ .refl EncUnit.Alike.refl (f e)

/-- A dispatched command performs its effect on equal records only (60_exceptions.md R104). -/
theorem DecUnit.Alike.dispatch {d d' : DecUnit} (h : d.Alike d') (f : DecUnit → Except Fault DecUnit) :
    ResultsAlike DecUnit.Alike (d.dispatch f) (d'.dispatch f) := by
  unfold DecUnit.dispatch
  rw [← h.state_eq]
  cases hstate : d.state with
  | error => exact .ok h
  | idle => exact .ok (h.streamError _)
  | done => exact .ok h
  | active => exact h.eq_of_active hstate ▸ .refl DecUnit.Alike.refl (f d)

/-! ## States that are alike -/

theorem State.Alike.onEnc {f : Width → EncUnit → Except Fault EncUnit} {s s' : State} (h : s.Alike s')
    (hf : ResultsAlike EncUnit.Alike (f s.param s.enc) (f s.param s'.enc)) :
    OutcomesAlike (s.onEnc f) (s'.onEnc f) := by
  obtain ⟨hparam, hhost, -, hdec⟩ := h
  unfold State.onEnc
  rw [← hparam]
  rcases hf with ⟨e, e', he, he', halike⟩ | ⟨r, he, he'⟩ <;> rw [he, he']
  · exact .next ⟨rfl, hhost, halike, hdec⟩
  · exact .inr ⟨r, rfl, rfl⟩

theorem State.Alike.onDec {f : Width → DecUnit → Except Fault DecUnit} {s s' : State} (h : s.Alike s')
    (hf : ResultsAlike DecUnit.Alike (f s.param s.dec) (f s.param s'.dec)) :
    OutcomesAlike (s.onDec f) (s'.onDec f) := by
  obtain ⟨hparam, hhost, henc, -⟩ := h
  unfold State.onDec
  rw [← hparam]
  rcases hf with ⟨d, d', hd, hd', halike⟩ | ⟨r, hd, hd'⟩ <;> rw [hd, hd']
  · exact .next ⟨rfl, hhost, henc, halike⟩
  · exact .inr ⟨r, rfl, rfl⟩

theorem State.Alike.exec {s s' : State} (h : s.Alike s') (i : Instr) : OutcomesAlike (exec i s) (exec i s') := by
  have ⟨_, _, henc, hdec⟩ := h
  cases i with
  | encInit => rw [exec_encInit, exec_encInit]; exact h.onEnc (.ok henc.init)
  | encSym sym => rw [exec_encSym, exec_encSym]; exact h.onEnc (henc.dispatch _)
  | encEnd => rw [exec_encEnd, exec_encEnd]; exact h.onEnc (henc.dispatch _)
  | decInit => rw [exec_decInit, exec_decInit]; exact h.onDec (.ok hdec.init)
  | decCode code => rw [exec_decCode, exec_decCode]; exact h.onDec (hdec.dispatch _)
  | decEos => rw [exec_decEos, exec_decEos]; exact h.onDec (hdec.dispatch _)

theorem State.Alike.illegalWord {s s' : State} (h : s.Alike s') (u : UnitId) :
    (s.illegalWord u).Alike (s'.illegalWord u) := by
  obtain ⟨hparam, hhost, henc, hdec⟩ := h
  cases u with
  | enc => exact ⟨hparam, hhost, henc.illegalWord, hdec⟩
  | dec => exact ⟨hparam, hhost, henc, hdec.illegalWord⟩

theorem State.Alike.takeWord {s s' : State} (h : s.Alike s') (u : UnitId) :
    (s.takeWord u).Alike (s'.takeWord u) := by
  obtain ⟨hparam, hhost, henc, hdec⟩ := h
  cases u with
  | enc => exact ⟨hparam, hhost, henc.take, hdec⟩
  | dec => exact ⟨hparam, hhost, henc, hdec.take⟩

theorem State.Alike.hardReset {s s' : State} (h : s.Alike s') : s.hardReset.Alike s'.hardReset :=
  ⟨h.1, h.2.1, EncUnit.Alike.refl _, DecUnit.Alike.refl _⟩

/-- A word decodes alike in every state. -/
theorem State.Alike.runWord {s s' : State} (h : s.Alike s') (u : UnitId) (cmd : CmdWord) :
    OutcomesAlike (runWord u cmd s) (runWord u cmd s') := by
  unfold Machine.runWord
  cases decode u cmd with
  | ok i => exact h.exec i
  | error r => exact .next (h.illegalWord u)

theorem State.Alike.act {s s' : State} (h : s.Alike s') (a : HostAction) : OutcomesAlike (act a s) (act a s') := by
  cases a with
  | send u cmd => exact h.runWord u cmd
  | take u => exact .next (h.takeWord u)
  | hardReset => exact .next h.hardReset

theorem State.Alike.withHost {s s' : State} (h : s.Alike s') (rest : List HostAction) :
    ({ s with host := rest } : State).Alike { s' with host := rest } := ⟨h.1, rfl, h.2.2⟩

theorem State.Alike.step {s s' : State} (h : s.Alike s') : OutcomesAlike (step s) (step s') := by
  unfold Machine.step stepHost
  rw [← h.2.1]
  cases s.host with
  | nil => exact .next h
  | cons a rest => exact (h.withHost rest).act a

/-- The registers do not show a dictionary (20_memory.md R48). -/
theorem State.Alike.readPort_eq {s s' : State} (h : s.Alike s') (addr : Nat) : s.readPort addr = s'.readPort addr := by
  obtain ⟨hparam, -, ⟨hecore, hnext, hw, -⟩, ⟨hdcore, hhighest, hcur, -⟩⟩ := h
  have henc : s.encStatus = s'.encStatus := by
    simp only [State.encStatus, EncUnit.pend, hparam, hecore, hnext, hw]
  have hdec : s.decStatus = s'.decStatus := by
    simp only [State.decStatus, DecUnit.pend, hparam, hdcore, hhighest, hcur]
  have hword : s.paramWord = s'.paramWord := by simp only [State.paramWord, hparam]
  unfold State.readPort
  split
  · exact henc
  · exact hdec
  · exact hword
  · rfl

theorem State.Alike.out_eq {s s' : State} (h : s.Alike s') (u : UnitId) :
    (s.unitCore u).out = (s'.unitCore u).out := by
  obtain ⟨-, -, ⟨hecore, -⟩, ⟨hdcore, -⟩⟩ := h
  cases u with
  | enc => exact congrArg UnitCore.out hecore
  | dec => exact congrArg UnitCore.out hdcore

/-- Settles O43: the port and the queues show no dictionary, and a step reads one in ACTIVE only. -/
theorem closedDictionariesAreUnobservable : Obligations.ClosedDictionariesAreUnobservable := by
  unfold Obligations.ClosedDictionariesAreUnobservable
  exact fun s s' h => ⟨h.readPort_eq, h.out_eq, h.step⟩

end Sys2Proof.Machine
end


section
/-! The decoder's table follows the encoder's dictionary (10_state.md R27). The encoder's data codewords are spelled by
its dictionary: each names an entry, and the entry learned after it extends that one by the first symbol of the
next. This is all the decoder needs to rebuild the entries, one codeword behind. -/

namespace Sys2Proof.Machine

/-! ## What a stream's commands do -/

/-- ENC_INIT is its effect in every state (60_exceptions.md R104). -/
theorem exec_encInit_next (s : State) : exec .encInit s = .next { s with enc := s.enc.init } := rfl

/-- DEC_INIT is its effect in every state (60_exceptions.md R104). -/
theorem exec_decInit_next (s : State) : exec .decInit s = .next { s with dec := s.dec.init } := rfl

/-- ENC_SYM in ACTIVE is its effect (60_exceptions.md R104). -/
theorem exec_encSym_active {s : State} {sym : Symbol} {e : EncUnit} (hact : s.enc.state = .active)
    (ht : s.enc.takeSymbol sym s.param = .ok e) : exec (.encSym sym) s = .next { s with enc := e } := by
  rw [exec_encSym]
  exact State.onEnc_ok ((EncUnit.dispatch_active hact).trans ht)

/-- ENC_END in ACTIVE is its effect (60_exceptions.md R104). -/
theorem exec_encEnd_active {s : State} (hact : s.enc.state = .active) :
    exec .encEnd s = .next { s with enc := s.enc.finish } := by
  rw [exec_encEnd]
  exact State.onEnc_ok (EncUnit.dispatch_active hact)

/-- DEC_CODE in ACTIVE is its effect (60_exceptions.md R104). -/
theorem exec_decCode_active {s : State} {code : BitVec 12} {d : DecUnit} (hact : s.dec.state = .active)
    (ht : s.dec.takeCode code.toNat s.param = .ok d) : exec (.decCode code) s = .next { s with dec := d } := by
  rw [exec_decCode]
  exact State.onDec_ok ((DecUnit.dispatch_active hact).trans ht)

/-! ## Codewords that a dictionary spells -/

/-- What ties a data codeword `c` to the one before it, `p`, with `n` codewords before that: `c` is a code the decoder
can meet (30_encoding.md R64), and `F` holds at `257 + n`, while there is room, the sequence of `p` and the first
symbol of `c`'s. -/
structure Memory.SpellsNext (W : Width) (F : Memory) (n p c : Nat) : Prop where
  neSentinel : c ≠ 256
  inSpace : c < W.ncodes
  le : c ≤ 257 + n
  learned : ∃ y q x r, F.read p = some (y :: q) ∧ F.read c = some (x :: r) ∧
    (257 + n < W.ncodes → F.read (257 + n) = some (y :: q ++ [x]))

/-- Data codewords of one stream, the last one first, that the dictionary `F` spells: a literal, then each tied to the
one before it. -/
def Memory.Spells (W : Width) (F : Memory) : List Nat → Prop
  | [] => True
  | [c] => c < 256
  | c :: p :: ds => F.SpellsNext W ds.length p c ∧ F.Spells W (p :: ds)

/-- Learning keeps what is spelled: no entry is overwritten. -/
theorem Memory.SpellsNext.mono {W : Width} {F G : Memory} {n p c : Nat} (h : F.SpellsNext W n p c)
    (hFG : ∀ c q, F.read c = some q → G.read c = some q) : G.SpellsNext W n p c := by
  obtain ⟨y, q, x, r, hp, hc, hnew⟩ := h.learned
  exact { h with learned := ⟨y, q, x, r, hFG _ _ hp, hFG _ _ hc, fun hroom => hFG _ _ (hnew hroom)⟩ }

theorem Memory.Spells.mono {W : Width} {F G : Memory} (hFG : ∀ c q, F.read c = some q → G.read c = some q) :
    ∀ {ds : List Nat}, F.Spells W ds → G.Spells W ds
  | [], _ => trivial
  | [_], h => h
  | _ :: _ :: _, ⟨hnext, h⟩ => ⟨hnext.mono hFG, h.mono hFG⟩

/-- What is spelled is spelled up to every codeword. -/
theorem Memory.Spells.drop {W : Width} {F : Memory} :
    ∀ {ds : List Nat} (n : Nat), F.Spells W ds → F.Spells W (ds.drop n)
  | _, 0, h => h
  | [], _ + 1, h => h
  | [_], _ + 1, _ => by simp [Memory.Spells]
  | _ :: _ :: _, n + 1, ⟨_, h⟩ => h.drop n

/-- The last codeword can be exchanged for an extension of its sequence. -/
theorem Memory.Spells.extend {W : Width} {F : Memory} {c c' : Nat} {q : SymSeq} {s : Symbol} {ds : List Nat}
    (h : F.Spells W (c :: ds)) (hc : F.read c = some q) (hc' : F.read c' = some (q ++ [s])) (hs : c' ≠ 256)
    (hspace : c' < W.ncodes) (hle : c' < 257 + ds.length) : F.Spells W (c' :: ds) := by
  cases ds with
  | nil =>
    rw [List.length_nil] at hle
    show c' < 256
    omega
  | cons p ds =>
    obtain ⟨hnext, h⟩ := h
    obtain ⟨y, q', x, r, hp, hx, hnew⟩ := hnext.learned
    obtain rfl := Option.some.inj (hc.symm.trans hx)
    rw [List.length_cons] at hle
    exact ⟨⟨hs, hspace, by omega, y, q', x, r ++ [s], hp, hc', hnew⟩, h⟩

/-- A symbol's literal can follow a codeword whose sequence, extended by the symbol, is learned while there is room. -/
theorem Memory.Spells.restart {W : Width} {F G : Memory} {c : Nat} {q : SymSeq} {s : Symbol} {ds : List Nat}
    (h : F.Spells W (c :: ds)) (hFG : ∀ c q, F.read c = some q → G.read c = some q) (hc : F.read c = some q)
    (hq : q ≠ []) (hs : G.read s.toNat = some [s])
    (hnew : 257 + ds.length < W.ncodes → G.read (257 + ds.length) = some (q ++ [s])) :
    G.Spells W (s.toNat :: c :: ds) := by
  obtain ⟨y, q, rfl⟩ := List.exists_cons_of_ne_nil hq
  have hlit : s.toNat < 256 := s.isLt
  have hrange := W.ncodes_range
  exact ⟨⟨by omega, by omega, by omega, y, q, s, [], hFG _ _ hc, hs, hnew⟩, h.mono hFG⟩

/-! ## The encoder's data codewords -/

/-- An open stream whose data codewords so far are `ds`, the last one first, and the pending match: they are queued
after `o`, and the dictionary spells them. -/
structure EncUnit.Streaming (W : Width) (o : List OutWord) (ds : List Nat) (e : EncUnit) : Prop where
  active : e.state = .active
  good : e.GoodDict W
  out : e.out = o ++ ds.reverse.map codeWord
  counter : e.nextCode = min (257 + ds.length) W.ncodes
  started : e.w = none → ds = []
  spells : e.dict.Spells W (e.w.toList ++ ds)

theorem EncUnit.Streaming.init (W : Width) (e : EncUnit) : e.init.Streaming W e.toUnitCore.queueAtInit [] where
  active := rfl
  good := EncUnit.GoodDict.init W e
  out := by simp [UnitCore.queueAtInit]
  counter := by
    have := W.ncodes_range
    rw [EncUnit.init_nextCode, List.length_nil]
    omega
  started _ := rfl
  spells := trivial

/-- ENC_SYM goes on with the stream (40_encoder.md R81): it starts a match, extends it, or emits it and restarts, and
then the codewords stay spelled whether or not there was room to learn. -/
theorem EncUnit.Streaming.takeSymbol {W : Width} {o : List OutWord} {ds : List Nat} {e : EncUnit}
    (h : e.Streaming W o ds) (s : Symbol) : ∃ e' ds', e.takeSymbol s W = .ok e' ∧ e'.Streaming W o ds' := by
  obtain ⟨e', ht⟩ := EncUnit.takeSymbol_completes (s := s) (W := W) h.good.opened.pending
  have hgood := h.good.takeSymbol ht
  have hcounter := h.counter
  have hlearned := h.good.opened.learned
  have hspells {w : Nat} (hw : e.w = some w) : e.dict.Spells W (w :: ds) := by simpa [hw] using h.spells
  have hne {w : Nat} {q : SymSeq} (hread : e.dict.read w = some q) : q ≠ [] :=
    hlearned.ne_nil_of_read hread (h.good.opened.ne_sentinel hread)
  rcases EncUnit.takeSymbol_ok ht with ⟨hw, rfl⟩ | ⟨w, q, n, hw, hread, hfound, rfl⟩ |
    ⟨w, q, hw, hread, -, ⟨hroom, rfl⟩ | ⟨hfull, rfl⟩⟩
  · obtain rfl := h.started hw
    exact ⟨_, [], ht, h.active, hgood, h.out, h.counter, fun _ => rfl, s.isLt⟩
  · have hn := Memory.read_of_lookup h.good.wf hfound
    have hlt := hlearned.lt_of_read hn
    exact ⟨_, ds, ht, h.active, hgood, h.out, h.counter, fun hnone => (by cases hnone),
      (hspells hw).extend hread hn (h.good.opened.ne_sentinel hn) (by omega) (by omega)⟩
  · have hnext : e.nextCode = 257 + ds.length := by omega
    refine ⟨_, w :: ds, ht, h.active, hgood, by simp [h.out], ?_, fun hnone => (by cases hnone),
      (hspells hw).restart (fun c r hc => ?_) hread (hne hread) (hgood.opened.learned.literals s) fun _ => ?_⟩
    · simp only [List.length_cons]
      omega
    · exact (e.dict.read_write_other _ (hlearned.lt_of_read hc).ne).trans hc
    · rw [← hnext]
      exact e.dict.read_write_same _ _
  · refine ⟨_, w :: ds, ht, h.active, hgood, by simp [h.out], ?_, fun hnone => (by cases hnone),
      (hspells hw).restart (fun _ _ hc => hc) hread (hne hread) (hlearned.literals s) fun hroom => ?_⟩
    · simp only [List.length_cons]
      omega
    · omega

/-- The symbols of a text are taken one after another. -/
theorem runInstrs_encText {o : List OutWord} (text : SymSeq) {s : State} {ds : List Nat}
    (h : s.enc.Streaming s.param o ds) :
    ∃ e ds', runInstrs (encText text) s = .next { s with enc := e } ∧ e.Streaming s.param o ds' := by
  induction text generalizing s ds with
  | nil => exact ⟨s.enc, ds, rfl, h⟩
  | cons sym text ih =>
    obtain ⟨e, ds', ht, he⟩ := h.takeSymbol sym
    obtain ⟨e', ds'', hrun, he'⟩ := ih (s := { s with enc := e }) he
    exact ⟨e', ds'', (runInstrs_cons (exec_encSym_active h.active ht)).trans hrun, he'⟩

/-- A whole stream emits data codewords that its final dictionary spells, then the sentinel and CLOSE(OK)
(40_encoder.md R80 to R82). -/
theorem runInstrs_encStream (s : State) (text : SymSeq) :
    ∃ e ds, runInstrs (encStream text) s = .next { s with enc := e } ∧
      e.out = s.enc.toUnitCore.queueAtInit ++ ds.reverse.map codeWord ++ [codeWord 256, closeWord .ok] ∧
      e.GoodDict s.param ∧ e.dict.Spells s.param ds := by
  obtain ⟨e, ds, hrun, he⟩ := runInstrs_encText text (s := { s with enc := s.enc.init })
    (EncUnit.Streaming.init s.param s.enc)
  refine ⟨e.finish, e.w.toList ++ ds, ?_, ?_, ?_, ?_⟩
  · calc runInstrs (encStream text) s
        = runInstrs (encText text ++ [Instr.encEnd]) { s with enc := s.enc.init } :=
          runInstrs_cons (exec_encInit_next s)
      _ = runInstrs [.encEnd] { s with enc := e } := runInstrs_append hrun
      _ = .next { s with enc := e.finish } := runInstrs_cons (exec_encEnd_active he.active)
  · rw [EncUnit.finish_eq, he.out]
    cases e.w <;> simp
  · rw [EncUnit.finish_eq]
    exact he.good.of_dict_eq rfl rfl fun c hc => by cases hc
  · rw [EncUnit.finish_eq]
    exact he.spells

/-! ## The decoder on spelled codewords -/

/-- A decoder that has decoded the data codeword `p` and `n` before it, with the entries it has learned from the
dictionary `F` (10_state.md R27). -/
structure DecUnit.Following (W : Width) (F : Memory) (n p : Nat) (d : DecUnit) : Prop where
  active : d.state = .active
  current : d.current = F.read p
  counter : d.highestCode = min (257 + n) W.ncodes
  agrees : ∀ c, c ≠ 256 → c < d.highestCode → d.table.read c = F.read c

/-- The first codeword of a stream (41_decoder.md R89). -/
theorem DecUnit.Following.first {W : Width} {F : Memory} {next : Nat} (hF : F.Learned W next) (d : DecUnit) {c : Nat}
    (hc : c < 256) : ∃ d', d.init.takeCode c W = .ok d' ∧ d'.Following W F 0 c := by
  have hrange := W.ncodes_range
  refine ⟨_, DecUnit.takeCode_first rfl hc (freshTable_literal hc), rfl, (hF.read_literal hc).symm, ?_, ?_⟩
  · show 257 = min (257 + 0) W.ncodes
    omega
  · intro a ha hlt
    have ha : a < 256 := by
      have hlt : a < 257 := hlt
      omega
    exact (freshTable_literal ha).trans (hF.read_literal ha).symm

/-- A later codeword is KNOWN, or SELF and then starts with the symbol `current` starts with, so what is accepted is
its entry of `F` (41_decoder.md R89; 30_encoding.md R64). -/
theorem DecUnit.Following.takeCode_eq {W : Width} {F : Memory} {n p c : Nat} {d : DecUnit} {y x : Symbol} {q r : SymSeq}
    (h : d.Following W F n p) (hc : F.SpellsNext W n p c) (hp : F.read p = some (y :: q))
    (hx : F.read c = some (x :: r)) (hnew : 257 + n < W.ncodes → F.read (257 + n) = some (y :: q ++ [x])) :
    d.takeCode c W = d.accept W (y :: q) (x :: r) := by
  have hcur := h.current.trans hp
  have hcounter := h.counter
  have hspace := hc.inSpace
  have hle := hc.le
  by_cases hknown : c < d.highestCode
  · exact DecUnit.takeCode_known hcur hc.neSentinel hspace hknown ((h.agrees c hc.neSentinel hknown).trans hx)
  · have hself : c = 257 + n := by omega
    obtain ⟨rfl, rfl⟩ : x = y ∧ r = q ++ [x] := by
      have hentry := hnew (by omega)
      rw [← hself, hx] at hentry
      exact List.cons.inj (Option.some.inj hentry)
    exact DecUnit.takeCode_self hcur hc.neSentinel hspace (by omega)

/-- A later codeword of the stream: the entry learned is the encoder's (41_decoder.md R89). -/
theorem DecUnit.Following.takeCode {W : Width} {F : Memory} {n p c : Nat} {d : DecUnit} (h : d.Following W F n p)
    (hc : F.SpellsNext W n p c) : ∃ d', d.takeCode c W = .ok d' ∧ d'.Following W F (n + 1) c := by
  obtain ⟨y, q, x, r, hp, hx, hnew⟩ := hc.learned
  have hcounter := h.counter
  rw [h.takeCode_eq hc hp hx hnew, DecUnit.accept_cons]
  refine ⟨_, rfl, ?_⟩
  split_ifs with hroom
  · have hnext : d.highestCode = 257 + n := by omega
    refine ⟨h.active, hx.symm, ?_, fun a ha hlt => ?_⟩
    · show d.highestCode + 1 = _
      omega
    · dsimp only
      rcases Nat.lt_succ_iff_lt_or_eq.1 hlt with hlt | rfl
      · rw [d.table.read_write_other _ hlt.ne]
        exact h.agrees a ha hlt
      · rw [d.table.read_write_same, hnext, hnew (hnext ▸ hroom)]
  · refine ⟨h.active, hx.symm, ?_, h.agrees⟩
    show d.highestCode = _
    omega

/-- A codeword fits DEC_CODE's operand (30_encoding.md R67). -/
theorem runInstrs_decCodes_singleton {s : State} {c : Nat} {d : DecUnit} (hact : s.dec.state = .active)
    (hc : c < s.param.ncodes) (ht : s.dec.takeCode c s.param = .ok d) :
    runInstrs (decCodes [c]) s = .next { s with dec := d } := by
  have hrange := s.param.ncodes_range
  have hoperand : (BitVec.ofNat 12 c).toNat = c := by
    rw [BitVec.toNat_ofNat, Nat.mod_eq_of_lt (by omega)]
  exact runInstrs_cons (exec_decCode_active hact (hoperand.symm ▸ ht))

/-- The decoder follows a dictionary through the codewords it spells (10_state.md R27). -/
theorem runInstrs_decCodes_following (t : State) {F : Memory} {next : Nat} (hF : F.Learned t.param next) (ds : List Nat)
    {p : Nat} (h : F.Spells t.param (p :: ds)) :
    ∃ d, runInstrs (.decInit :: decCodes (p :: ds).reverse) t = .next { t with dec := d } ∧
      d.Following t.param F ds.length p := by
  induction ds generalizing p with
  | nil =>
    obtain ⟨d, ht, hd⟩ := DecUnit.Following.first hF t.dec h
    have hp : p < t.param.ncodes := lt_of_lt_of_le h (le_trans (by decide) t.param.ncodes_range.1)
    exact ⟨d, (runInstrs_cons (exec_decInit_next t)).trans
      (runInstrs_decCodes_singleton (s := { t with dec := t.dec.init }) rfl hp ht), hd⟩
  | cons p' ds ih =>
    obtain ⟨hnext, h⟩ := h
    obtain ⟨d, hrun, hd⟩ := ih h
    obtain ⟨d', ht, hd'⟩ := hd.takeCode hnext
    refine ⟨d', ?_, hd'⟩
    rw [List.reverse_cons, decCodes, List.map_append, ← List.cons_append]
    exact (runInstrs_append hrun).trans
      (runInstrs_decCodes_singleton (s := { t with dec := d }) hd.active hnext.inSpace ht)

/-! ## The two ends -/

@[simp] theorem outPayload_codeWord (c : Nat) : outPayload (codeWord c) = BitVec.ofNat 12 c :=
  BitVec.extractLsb'_append_eq_right

/-- DEC_CODE commands carry the payloads of the encoder's DATA words (30_encoding.md R67, R71). -/
theorem decCodes_eq_map_payload (ds : List Nat) :
    decCodes ds = (ds.map codeWord).map fun o => .decCode (outPayload o) := by
  simp [decCodes]

/-- Settles O51: the final dictionary spells the encoder's data codewords, and the decoder follows it through the first
`k` of them. -/
theorem dictionariesStaySynchronised : Obligations.DictionariesStaySynchronised := by
  unfold Obligations.DictionariesStaySynchronised
  intro s t text ds k hrun hout hk hlen
  obtain ⟨e, rs, hrun', hout', hgood, hspells⟩ := runInstrs_encStream s text
  obtain rfl : t = { s with enc := e } := Host.Outcome.next.inj (hrun.symm.trans hrun')
  have hwords : ds.map codeWord = rs.reverse.map codeWord :=
    List.append_cancel_left (List.append_cancel_right (hout.symm.trans hout'))
  have hlength : ds.length = rs.length := by simpa using congrArg List.length hwords
  have htake : decCodes (ds.take k) = decCodes (rs.drop (rs.length - k)).reverse := by
    rw [decCodes_eq_map_payload, List.map_take, hwords, ← List.map_take, List.take_reverse,
      ← decCodes_eq_map_payload]
  obtain ⟨p, ps, hps⟩ : ∃ p ps, rs.drop (rs.length - k) = p :: ps :=
    List.exists_cons_of_length_pos (by rw [List.length_drop]; omega)
  have hpslen : ps.length + 1 = k := by
    have := congrArg List.length hps
    rw [List.length_drop, List.length_cons] at this
    omega
  have hspells' := hspells.drop (rs.length - k)
  rw [hps] at hspells'
  obtain ⟨d, hdec, hd⟩ := runInstrs_decCodes_following { s with enc := e } hgood.opened.learned ps hspells'
  refine ⟨_, by rw [htake, hps]; exact hdec, hd.active, ?_, fun c hc hlt => hd.agrees c (by omega) hlt⟩
  rw [hd.counter, show 257 + ps.length = 256 + k by omega]

end Sys2Proof.Machine
end


section
/-! The host's side and the two units (20_memory.md R43, R48, R55, R56). A command, and so a word, is an operation of
its own unit's record with PARAM: this makes the units' words commute and lets a command run whatever the host does
next. Words written by `encode` decode to their commands, so steps run a list of commands in order. -/

namespace Sys2Proof.Machine

/-! ## Host actions -/

/-- A step is the oldest host action still to come (00_scope.md R6). -/
theorem step_eq_act {s : State} {a : HostAction} {rest : List HostAction} (h : s.host = a :: rest) :
    step s = act a { s with host := rest } := by
  simp only [step, stepHost, h]

/-- Taking from the encoder's queue leaves the words behind the front one (20_memory.md R55). -/
theorem State.takeWord_enc_of_cons {s : State} {o : OutWord} {ws : List OutWord} (h : s.enc.out = o :: ws) :
    s.takeWord .enc = { s with enc := { s.enc with out := ws } } := by
  rw [State.takeWord, h, List.tail_cons]

/-- Taking from the decoder's queue leaves the words behind the front one (20_memory.md R55). -/
theorem State.takeWord_dec_of_cons {s : State} {o : OutWord} {ws : List OutWord} (h : s.dec.out = o :: ws) :
    s.takeWord .dec = { s with dec := { s.dec with out := ws } } := by
  rw [State.takeWord, h, List.tail_cons]

/-- Settles O5: the step is the take, which leaves the tail of the one queue. -/
theorem takeRemovesFrontWord : Obligations.TakeRemovesFrontWord := by
  unfold Obligations.TakeRemovesFrontWord
  intro s rest o ws
  constructor <;> intro hhost hout <;> rw [step_eq_act hhost]
  · exact congrArg Host.Outcome.next (State.takeWord_enc_of_cons (s := { s with host := rest }) hout)
  · exact congrArg Host.Outcome.next (State.takeWord_dec_of_cons (s := { s with host := rest }) hout)

/-! ## The read port -/

/-- An address past the three registers reads zero (20_memory.md R48). -/
theorem State.readPort_unmapped (s : State) {addr : Nat} (h : 2 < addr) : s.readPort addr = 0#32 := by
  unfold State.readPort
  split
  case h_4 => rfl
  all_goals omega

/-- Settles O35: the three registers by the port's own map, and zero past them. -/
theorem readPortMap : Obligations.ReadPortMap := by
  unfold Obligations.ReadPortMap
  exact fun s => ⟨rfl, rfl, rfl, fun _ => s.readPort_unmapped⟩

/-! ## A command is an operation of its unit -/

/-- A command of the encoder is one operation of ENC in every state (20_memory.md R56). -/
theorem exec_eq_onEnc {i : Instr} (h : i.unit = .enc) : ∃ f, ∀ s, exec i s = s.onEnc f := by
  cases i with
  | encInit => exact ⟨_, exec_encInit⟩
  | encSym sym => exact ⟨_, exec_encSym sym⟩
  | encEnd => exact ⟨_, exec_encEnd⟩
  | decInit => cases h
  | decCode code => cases h
  | decEos => cases h

/-- A command of the decoder is one operation of DEC in every state (20_memory.md R56). -/
theorem exec_eq_onDec {i : Instr} (h : i.unit = .dec) : ∃ g, ∀ s, exec i s = s.onDec g := by
  cases i with
  | encInit => cases h
  | encSym sym => cases h
  | encEnd => cases h
  | decInit => exact ⟨_, exec_decInit⟩
  | decCode code => exact ⟨_, exec_decCode code⟩
  | decEos => exact ⟨_, exec_decEos⟩

/-- A word on the encoder, legal or not, is one operation of ENC in every state (20_memory.md R56). -/
theorem runWord_eq_onEnc (cmd : CmdWord) : ∃ f, ∀ s, runWord .enc cmd s = s.onEnc f := by
  unfold runWord
  cases hdec : decode .enc cmd with
  | ok i => exact exec_eq_onEnc (decode_ok_unit hdec)
  | error r => exact ⟨fun _ e => .ok e.illegalWord, fun _ => rfl⟩

/-- A word on the decoder, legal or not, is one operation of DEC in every state (20_memory.md R56). -/
theorem runWord_eq_onDec (cmd : CmdWord) : ∃ g, ∀ s, runWord .dec cmd s = s.onDec g := by
  unfold runWord
  cases hdec : decode .dec cmd with
  | ok i => exact exec_eq_onDec (decode_ok_unit hdec)
  | error r => exact ⟨fun _ d => .ok d.illegalWord, fun _ => rfl⟩

/-- Operations of the two units share nothing and commute (20_memory.md R56). -/
theorem State.onEnc_onDec_comm {f : Width → EncUnit → Except Fault EncUnit} {g : Width → DecUnit → Except Fault DecUnit}
    {s t u : State} (ht : s.onEnc f = .next t) (hu : s.onDec g = .next u) :
    t.dec = s.dec ∧ u.enc = s.enc ∧
      ∃ v, t.onDec g = .next v ∧ u.onEnc f = .next v ∧ v.enc = t.enc ∧ v.dec = u.dec := by
  obtain ⟨e, he, rfl⟩ := State.onEnc_next.1 ht
  obtain ⟨d, hd, rfl⟩ := State.onDec_next.1 hu
  exact ⟨rfl, rfl, { s with enc := e, dec := d }, State.onDec_ok hd, State.onEnc_ok he, rfl, rfl⟩

/-- Settles O37: the two words are operations of different units, which commute. -/
theorem unitsAreIndependent : Obligations.UnitsAreIndependent := by
  unfold Obligations.UnitsAreIndependent
  intro s t u a b ht hu
  obtain ⟨f, hf⟩ := runWord_eq_onEnc a
  obtain ⟨g, hg⟩ := runWord_eq_onDec b
  rw [hf] at ht
  rw [hg] at hu
  simp only [hf, hg]
  exact State.onEnc_onDec_comm ht hu

/-! ## Learning in ENC_SYM -/

/-- ENC_SYM moves the counter only in ACTIVE, where it is its effect (60_exceptions.md R104). -/
theorem exec_encSym_of_nextCode_ne {s t : State} {sym : Symbol} (h : exec (.encSym sym) s = .next t)
    (hne : t.enc.nextCode ≠ s.enc.nextCode) :
    s.enc.state = .active ∧ s.enc.takeSymbol sym s.param = .ok t.enc := by
  rw [exec_encSym] at h
  obtain ⟨e, he, rfl⟩ := State.onEnc_next.1 h
  rcases s.enc.dispatch_cases (EncUnit.takeSymbol sym s.param) with ⟨-, heq⟩ | ⟨-, heq⟩ | ⟨hact, heq⟩ <;>
    rw [heq] at he
  · cases he
    exact absurd rfl hne
  · cases he
    exact absurd rfl hne
  · exact ⟨hact, he⟩

/-- Where ENC_SYM moves the counter it has written the pending match's sequence and the symbol, which no entry held,
at the old counter (40_encoder.md R81). -/
theorem EncUnit.takeSymbol_of_nextCode_ne {s : Symbol} {W : Width} {e e' : EncUnit} (h : e.takeSymbol s W = .ok e')
    (hne : e'.nextCode ≠ e.nextCode) :
    ∃ w q, e.w = some w ∧ e.dict.read w = some q ∧ e.dict.lookup (q ++ [s]) = none ∧
      e'.dict = e.dict.write e.nextCode (some (q ++ [s])) := by
  rcases EncUnit.takeSymbol_ok h with ⟨-, rfl⟩ | ⟨_, _, _, -, -, -, rfl⟩ |
    ⟨w, q, hw, hread, hnew, ⟨-, rfl⟩ | ⟨-, rfl⟩⟩
  · exact absurd rfl hne
  · exact absurd rfl hne
  · exact ⟨w, q, hw, hread, hnew, rfl⟩
  · exact absurd rfl hne

/-- Settles O23: ENC_SYM learns after a failed Lookup only, and the entries from the counter on are free
(10_state.md R25 (4)). -/
theorem insertionPrecondition : Obligations.InsertionPrecondition := by
  unfold Obligations.InsertionPrecondition
  intro s t sym hs ht hne
  obtain ⟨hact, htake⟩ := exec_encSym_of_nextCode_ne ht hne
  obtain ⟨w, q, hw, hread, hnew, hdict⟩ := EncUnit.takeSymbol_of_nextCode_ne htake hne
  refine ⟨w, q, hw, hread, ?_, (Memory.lookup_eq_none_iff hs.enc.wf _).1 hnew, ?_⟩
  · exact (hs.enc.opened (.inl hact)).learned.free _ le_rfl
  · rw [hdict]
    exact s.enc.dict.read_write_same _ _

/-! ## A command's word runs the command -/

/-- ENC_SYM's word carries its symbol (30_encoding.md R65 to R67). -/
theorem decode_encode_encSym (sym : BitVec 8) : decode .enc (encode (.encSym sym)) = .ok (.encSym sym) := by
  have hop : opField (encode (.encSym sym)) = 2#4 :=
    BitVec.extractLsb'_append_eq_of_le (v := 8) (w := 8) (by decide)
  have hreserved : symReserved (encode (.encSym sym)) = 0#4 :=
    BitVec.extractLsb'_append_eq_of_le (v := 8) (w := 8) (by decide)
  have hsym : symField (encode (.encSym sym)) = sym := BitVec.extractLsb'_append_eq_right (w := 8)
  simp [decode, decodeEnc, decodeEncSym, hop, hreserved, hsym]

/-- DEC_CODE's word carries its codeword (30_encoding.md R65 to R67). -/
theorem decode_encode_decCode (code : BitVec 12) : decode .dec (encode (.decCode code)) = .ok (.decCode code) := by
  have hop : opField (encode (.decCode code)) = 4#4 := BitVec.extractLsb'_append_eq_left (w := 4)
  have harg : argField (encode (.decCode code)) = code := BitVec.extractLsb'_append_eq_right (w := 4)
  simp [decode, decodeDec, hop, harg]

/-- A command's word decodes to the command on its own unit (30_encoding.md R66). -/
theorem decode_encode (i : Instr) : decode i.unit (encode i) = .ok i := by
  cases i with
  | encInit => rfl
  | encSym sym => exact decode_encode_encSym sym
  | encEnd => rfl
  | decInit => rfl
  | decCode code => exact decode_encode_decCode code
  | decEos => rfl

/-- A command's word on its own unit runs the command (60_exceptions.md R104). -/
theorem runWord_encode (i : Instr) (s : State) : runWord i.unit (encode i) s = exec i s := by
  simp only [runWord, decode_encode]

/-! ## Steps and runs of commands -/

theorem State.onEnc_withHost {f : Width → EncUnit → Except Fault EncUnit} {s t : State} (h : s.onEnc f = .next t)
    (host : List HostAction) : State.onEnc f { s with host := host } = .next { t with host := host } := by
  obtain ⟨e, he, rfl⟩ := State.onEnc_next.1 h
  exact State.onEnc_ok (s := { s with host := host }) he

theorem State.onDec_withHost {g : Width → DecUnit → Except Fault DecUnit} {s t : State} (h : s.onDec g = .next t)
    (host : List HostAction) : State.onDec g { s with host := host } = .next { t with host := host } := by
  obtain ⟨d, hd, rfl⟩ := State.onDec_next.1 h
  exact State.onDec_ok (s := { s with host := host }) hd

/-- A command does the same whatever the host does next. -/
theorem exec_withHost {i : Instr} {s t : State} (h : exec i s = .next t) (host : List HostAction) :
    exec i { s with host := host } = .next { t with host := host } := by
  cases hunit : i.unit with
  | enc =>
    obtain ⟨f, hf⟩ := exec_eq_onEnc hunit
    rw [hf] at h ⊢
    exact State.onEnc_withHost h host
  | dec =>
    obtain ⟨g, hg⟩ := exec_eq_onDec hunit
    rw [hg] at h ⊢
    exact State.onDec_withHost h host

/-- A step on a command's word, sent to its unit, runs the command and consumes the action. -/
theorem step_send_encode {i : Instr} {s t : State} (h : exec i s = .next t) (rest : List HostAction) :
    step { s with host := .send i.unit (encode i) :: rest } = .next { t with host := rest } := by
  rw [step_eq_act rfl]
  exact (runWord_encode i _).trans (exec_withHost h rest)

/-- A run that completes completes its first command and then the others. -/
theorem runInstrs_cons_next {i : Instr} {is : List Instr} {s t : State} :
    runInstrs (i :: is) s = .next t ↔ ∃ u, exec i s = .next u ∧ runInstrs is u = .next t := by
  rw [runInstrs]
  cases exec i s <;> simp

theorem core_run_succ {s t : State} (h : step s = .next t) (k : Nat) :
    Sys2Proof.core.run (k + 1) s = Sys2Proof.core.run k t := by
  have hstep : Sys2Proof.core.step s = .next t := h
  simp only [Host.Core.run, hstep]

/-- Settles O45, by induction on the commands: a step on the first one's word runs it, and the later words are still
to come. -/
theorem stepsRunTheCommandsInOrder : Obligations.StepsRunTheCommandsInOrder := by
  unfold Obligations.StepsRunTheCommandsInOrder
  intro is s t rest hrun
  induction is generalizing s with
  | nil =>
    obtain rfl := Host.Outcome.next.inj hrun
    rfl
  | cons i is ih =>
    obtain ⟨u, hexec, hrest⟩ := runInstrs_cons_next.1 hrun
    exact (core_run_succ (step_send_encode hexec _) _).trans (ih u hrest)

end Sys2Proof.Machine
end

section
/-! The command words (30_encoding.md R65 to R68). A word is its opcode and its operand, so what decodes on a unit is
the word of the command it decodes to; the words a unit's masks make legal are these words. -/

namespace Sys2Proof.Machine

/-! ## A word that decodes is its command's word -/

/-- Settles O14: command by command, the word's fields are its opcode and its operand. -/
theorem decodeOfEncode : Obligations.DecodeOfEncode := by
  unfold Obligations.DecodeOfEncode
  exact decode_encode

/-- A word is its opcode followed by its operand field (30_encoding.md R65). -/
theorem eq_opField_append_argField (cmd : CmdWord) : opField cmd ++ argField cmd = cmd :=
  BitVec.extractLsb'_append_extractLsb' (w := 4) (len := 12)

/-- The operand field is the reserved bits followed by the symbol (30_encoding.md R65, R67). -/
theorem argField_eq_symReserved_append_symField (cmd : CmdWord) : symReserved cmd ++ symField cmd = argField cmd :=
  BitVec.extractLsb'_append_extractLsb'_eq_extractLsb' (by rfl)

/-- A command without operand decodes only where the operand field is zero (30_encoding.md R65). -/
theorem argField_of_decodeNoOperand_ok {i j : Instr} {cmd : CmdWord} (h : decodeNoOperand i cmd = .ok j) :
    argField cmd = 0#12 := by
  unfold decodeNoOperand at h
  split_ifs at h with harg
  exact harg

/-- ENC_SYM decodes only where the reserved bits are zero (30_encoding.md R65). -/
theorem symReserved_of_decodeEncSym_ok {i : Instr} {cmd : CmdWord} (h : decodeEncSym cmd = .ok i) :
    symReserved cmd = 0#4 := by
  unfold decodeEncSym at h
  split_ifs at h with hres
  exact hres

/-- A word is known by its opcode and its operand field (30_encoding.md R65). -/
theorem eq_word_of_fields {cmd : CmdWord} {op : BitVec 4} {arg : BitVec 12} (hop : (opField cmd).toNat = op.toNat)
    (harg : argField cmd = arg) : op ++ arg = cmd := by
  rw [← BitVec.eq_of_toNat_eq hop, ← harg, eq_opField_append_argField]

/-- ENC_SYM's word is its opcode, zero reserved bits and the symbol (30_encoding.md R65 to R67). -/
theorem encode_encSym_eq (sym : BitVec 8) : encode (.encSym sym) = 2#4 ++ (0#4 ++ sym) :=
  (BitVec.append_assoc (x₁ := 2#4) (x₂ := 0#4) (x₃ := sym)).trans (BitVec.cast_eq _ _)

theorem encode_of_decodeEnc_ok {cmd : CmdWord} {i : Instr} (h : decodeEnc cmd = .ok i) : encode i = cmd := by
  unfold decodeEnc at h
  split at h
  case h_1 hop =>
    rw [decodeNoOperand_ok h]
    exact eq_word_of_fields (op := 1#4) hop (argField_of_decodeNoOperand_ok h)
  case h_2 hop =>
    rw [decodeEncSym_ok h, encode_encSym_eq, ← symReserved_of_decodeEncSym_ok h]
    exact eq_word_of_fields hop (argField_eq_symReserved_append_symField cmd).symm
  case h_3 hop =>
    rw [decodeNoOperand_ok h]
    exact eq_word_of_fields (op := 3#4) hop (argField_of_decodeNoOperand_ok h)
  all_goals cases h

theorem encode_of_decodeDec_ok {cmd : CmdWord} {i : Instr} (h : decodeDec cmd = .ok i) : encode i = cmd := by
  unfold decodeDec at h
  split at h
  case h_1 hop =>
    rw [decodeNoOperand_ok h]
    exact eq_word_of_fields (op := 1#4) hop (argField_of_decodeNoOperand_ok h)
  case h_4 hop =>
    cases h
    exact eq_word_of_fields hop rfl
  case h_5 hop =>
    rw [decodeNoOperand_ok h]
    exact eq_word_of_fields (op := 5#4) hop (argField_of_decodeNoOperand_ok h)
  all_goals cases h

/-- A word that decodes is the word of its command (30_encoding.md R65 to R67). -/
theorem encode_of_decode_ok {u : UnitId} {cmd : CmdWord} {i : Instr} (h : decode u cmd = .ok i) : encode i = cmd := by
  cases u with
  | enc => exact encode_of_decodeEnc_ok h
  | dec => exact encode_of_decodeDec_ok h

/-- Settles O15: a unit's decoder gives commands of the unit, and reads every field of the word. -/
theorem encodeOfDecode : Obligations.EncodeOfDecode := by
  unfold Obligations.EncodeOfDecode
  exact fun _ _ _ h => ⟨decode_ok_unit h, encode_of_decode_ok h⟩

/-- Settles O12: the decoder evaluates to the listed answer on each of the written words. -/
theorem writtenWordsDecode : Obligations.WrittenWordsDecode := by
  unfold Obligations.WrittenWordsDecode
  decide

/-! ## The legal words -/

/-- The bits of a mask of high ones are a pattern of high bits when the word's high field is it. -/
theorem and_highMask_eq_iff {h l : Nat} (x : BitVec (h + l)) (v : BitVec h) :
    x &&& (BitVec.allOnes h ++ 0#l) = v ++ 0#l ↔ x.extractLsb' l h = v := by
  conv_lhs => rw [← BitVec.extractLsb'_append_extractLsb' (x := x), BitVec.and_append, BitVec.and_allOnes,
    BitVec.and_zero]
  refine ⟨fun heq => ?_, fun heq => by rw [heq]⟩
  simpa only [BitVec.extractLsb'_append_eq_left] using congrArg (BitVec.extractLsb' l h) heq

/-- A word with a given high field is the field followed by the other bits. -/
theorem exists_append_of_extractLsb' {h l : Nat} {x : BitVec (h + l)} {v : BitVec h} (heq : x.extractLsb' l h = v) :
    ∃ y : BitVec l, v ++ y = x := ⟨x.extractLsb' 0 l, heq ▸ BitVec.extractLsb'_append_extractLsb'⟩

/-- The encoder's rows of the opcode table: INIT, the symbols by their high byte, END (30_encoding.md R66). -/
theorem legal_enc_iff (cmd : CmdWord) :
    legal .enc cmd = true ↔ cmd = 0x1000#16 ∨ cmd.extractLsb' 8 8 = 0x20#8 ∨ cmd = 0x3000#16 := by
  have hfull : cmd &&& 0xFFFF#16 = cmd := BitVec.and_allOnes
  have hsym : cmd &&& 0xFF00#16 = 0x2000#16 ↔ cmd.extractLsb' 8 8 = 0x20#8 :=
    and_highMask_eq_iff (h := 8) (l := 8) cmd 0x20#8
  simp [legal, opcodeRows, hfull, hsym]

/-- The decoder's rows of the opcode table: INIT, the codewords by their opcode, EOS (30_encoding.md R66). -/
theorem legal_dec_iff (cmd : CmdWord) :
    legal .dec cmd = true ↔ cmd = 0x1000#16 ∨ cmd.extractLsb' 12 4 = 4#4 ∨ cmd = 0x5000#16 := by
  have hfull : cmd &&& 0xFFFF#16 = cmd := BitVec.and_allOnes
  have hcode : cmd &&& 0xF000#16 = 0x4000#16 ↔ cmd.extractLsb' 12 4 = 4#4 :=
    and_highMask_eq_iff (h := 4) (l := 12) cmd 4#4
  simp [legal, opcodeRows, hfull, hcode]

/-- The words of ENC_SYM are 0x2000 to 0x20FF (30_encoding.md R66). -/
theorem highByte_eq_iff_range (cmd : CmdWord) :
    cmd.extractLsb' 8 8 = 0x20#8 ↔ 0x2000 ≤ cmd.toNat ∧ cmd.toNat ≤ 0x20FF := by
  rw [← BitVec.toNat_inj, BitVec.extractLsb'_toNat, Nat.shiftRight_eq_div_pow, BitVec.toNat_ofNat]
  omega

/-- The words of DEC_CODE are 0x4000 to 0x4FFF (30_encoding.md R66). -/
theorem opcode_eq_iff_range (cmd : CmdWord) :
    cmd.extractLsb' 12 4 = 4#4 ↔ 0x4000 ≤ cmd.toNat ∧ cmd.toNat ≤ 0x4FFF := by
  rw [← BitVec.toNat_inj, BitVec.extractLsb'_toNat, Nat.shiftRight_eq_div_pow, BitVec.toNat_ofNat]
  omega

/-- A legal word is the word of a command of the unit (30_encoding.md R66, R68). -/
theorem exists_encode_of_legal {u : UnitId} {cmd : CmdWord} (h : legal u cmd = true) :
    ∃ i : Instr, i.unit = u ∧ encode i = cmd := by
  cases u with
  | enc =>
    rcases (legal_enc_iff cmd).1 h with hinit | hsym | hend
    · exact ⟨.encInit, rfl, hinit.symm⟩
    · obtain ⟨sym, hword⟩ := exists_append_of_extractLsb' (h := 8) (l := 8) hsym
      exact ⟨.encSym sym, rfl, hword⟩
    · exact ⟨.encEnd, rfl, hend.symm⟩
  | dec =>
    rcases (legal_dec_iff cmd).1 h with hinit | hcode | heos
    · exact ⟨.decInit, rfl, hinit.symm⟩
    · obtain ⟨code, hword⟩ := exists_append_of_extractLsb' (h := 4) (l := 12) hcode
      exact ⟨.decCode code, rfl, hword⟩
    · exact ⟨.decEos, rfl, heos.symm⟩

/-- A command's word is legal on its unit (30_encoding.md R66, R68). -/
theorem legal_encode (i : Instr) : legal i.unit (encode i) = true := by
  cases i with
  | encInit => exact Laws.EncodesLegal.encInit
  | encSym sym => exact Laws.EncodesLegal.encSym sym
  | encEnd => exact Laws.EncodesLegal.encEnd
  | decInit => exact Laws.EncodesLegal.decInit
  | decCode code => exact Laws.EncodesLegal.decCode code
  | decEos => exact Laws.EncodesLegal.decEos

/-- The words legal on a unit are the words it decodes (30_encoding.md R68). -/
theorem legal_iff_decodes (u : UnitId) (cmd : CmdWord) : legal u cmd = true ↔ ∃ i, decode u cmd = .ok i := by
  constructor
  · intro h
    obtain ⟨i, rfl, rfl⟩ := exists_encode_of_legal h
    exact ⟨i, decode_encode i⟩
  · rintro ⟨i, h⟩
    rw [← decode_ok_unit h, ← encode_of_decode_ok h]
    exact legal_encode i

/-- Settles O13: the masks of the opcode table, read as fields and then as ranges, and both directions between a legal
word and its command. -/
theorem legalWordsAreTheListedOnes : Obligations.LegalWordsAreTheListedOnes := by
  unfold Obligations.LegalWordsAreTheListedOnes
  intro cmd
  rw [← highByte_eq_iff_range, ← opcode_eq_iff_range]
  exact ⟨legal_enc_iff cmd, legal_dec_iff cmd, fun u => legal_iff_decodes u cmd⟩

end Sys2Proof.Machine
end

section
/-! The output words (30_encoding.md R70 to R72): their fields, by the pieces a word is put together from, and the one
CLOSE word that ends each stream: what a word on a unit can do to the unit's stream is said once, by `StreamEffect`. -/

namespace Sys2Proof.Machine

/-! ## The fields of an output word -/

@[simp] theorem outTag_codeWord (c : Nat) : outTag (codeWord c) = tagData :=
  BitVec.extractLsb'_append_eq_left (w := 4) (w' := 12)

@[simp] theorem outTag_symWord (x : Symbol) : outTag (symWord x) = tagData :=
  BitVec.extractLsb'_append_eq_left (w := 4) (w' := 12)

@[simp] theorem outTag_closeWord (st : Status) : outTag (closeWord st) = tagClose :=
  BitVec.extractLsb'_append_eq_left (w := 4) (w' := 12)

/-- CODEWORD carries its code: every code space fits the payload (30_encoding.md R71). -/
theorem outPayload_codeWord_toNat {W : Width} {c : Nat} (h : c < W.ncodes) : (outPayload (codeWord c)).toNat = c := by
  have hW := W.ncodes_range
  rw [outPayload_codeWord, BitVec.toNat_ofNat, Nat.mod_eq_of_lt (by omega)]

theorem symWord_reserved (x : Symbol) : (symWord x).extractLsb' 8 4 = 0x0#4 :=
  (BitVec.extractLsb'_append_eq_of_add_le (w := 12) (by decide)).trans BitVec.extractLsb'_append_eq_left

theorem symWord_symbol (x : Symbol) : (symWord x).extractLsb' 0 8 = x :=
  (BitVec.extractLsb'_append_eq_of_add_le (w := 12) (by decide)).trans BitVec.extractLsb'_append_eq_right

theorem closeWord_reserved (st : Status) : (closeWord st).extractLsb' 4 8 = 0x00#8 :=
  (BitVec.extractLsb'_append_eq_of_add_le (w := 12) (by decide)).trans BitVec.extractLsb'_append_eq_left

theorem closeWord_status (st : Status) : (closeWord st).extractLsb' 0 4 = st.bits :=
  (BitVec.extractLsb'_append_eq_of_add_le (w := 12) (by decide)).trans BitVec.extractLsb'_append_eq_right

theorem isData_iff (o : OutWord) : isData o = true ↔ outTag o = tagData := beq_iff_eq

theorem isClose_iff (o : OutWord) : isClose o = true ↔ outTag o = tagClose := beq_iff_eq

/-- Settles O57: each field is one of the pieces the word is put together from. -/
theorem outputWordLayout : Obligations.OutputWordLayout := by
  unfold Obligations.OutputWordLayout
  refine ⟨fun W c h => ⟨outTag_codeWord c, outPayload_codeWord_toNat h⟩,
    fun x => ⟨outTag_symWord x, symWord_reserved x, symWord_symbol x⟩,
    fun st => ⟨outTag_closeWord st, closeWord_reserved st, ?_⟩, fun o => ⟨isData_iff o, isClose_iff o⟩⟩
  rw [closeWord_status]
  exact st.bits_listed

@[simp] theorem isClose_codeWord (c : Nat) : isClose (codeWord c) = false := by
  simp [isClose, tagData, tagClose]

@[simp] theorem isClose_symWord (x : Symbol) : isClose (symWord x) = false := by
  simp [isClose, tagData, tagClose]

@[simp] theorem isClose_closeWord (st : Status) : isClose (closeWord st) = true := by
  simp [isClose]

/-! ## What a word on a unit does to the unit's stream -/

/-- What a word on a unit can do to the unit's stream; `init` says whether the word is INIT (30_encoding.md R72;
70_reset_and_hazards.md R131; 60_exceptions.md R102, R105). -/
inductive StreamEffect (init : Prop) (p p' : UnitCore) : Prop
  /-- No stream is open, and none of its words are emitted. -/
  | closed (hstate : p.state ≠ .active) (hout : p'.out = p.out)
  /-- The open stream goes on, with more words of it. -/
  | goesOn (ws : List OutWord) (hinit : ¬ init) (hstate : p.state = .active) (hstate' : p'.state = .active)
      (hws : ∀ o ∈ ws, isClose o = false) (hout : p'.out = p.out ++ ws)
  /-- The open stream ends: its last words, then CLOSE. -/
  | ends (ws : List OutWord) (st : Status) (hend : p'.state ≠ .active ∨ init) (hstate : p.state = .active)
      (hws : ∀ o ∈ ws, isClose o = false) (hout : p'.out = p.out ++ (ws ++ [closeWord st]))

/-- What `OneCloseWordEndsEachStream` says of the words a unit emits, from what can happen to its stream. -/
theorem StreamEffect.emitted {init : Prop} {p p' : UnitCore} (h : StreamEffect init p p') :
    ∃ ws, p'.out = p.out ++ ws ∧ (p.state ≠ .active → ws = []) ∧
      (p.state = .active → (∀ o ∈ ws.dropLast, isClose o = false) ∧
        ((∃ o, ws.getLast? = some o ∧ isClose o = true) ↔ (p'.state ≠ .active ∨ init))) := by
  cases h with
  | closed hstate hout => exact ⟨[], by simpa using hout, fun _ => rfl, fun hact => absurd hact hstate⟩
  | goesOn ws hinit hstate hstate' hws hout =>
    refine ⟨ws, hout, fun h => absurd hstate h, fun _ => ⟨fun o ho => hws o (List.mem_of_mem_dropLast ho), ?_⟩⟩
    have hlast : ¬ ∃ o, ws.getLast? = some o ∧ isClose o = true := by
      rintro ⟨o, ho, hclose⟩
      rw [hws o (List.mem_of_getLast? ho)] at hclose
      cases hclose
    exact iff_of_false hlast (not_or.2 ⟨not_not.2 hstate', hinit⟩)
  | ends ws st hend hstate hws hout =>
    refine ⟨ws ++ [closeWord st], hout, fun h => absurd hstate h, fun _ => ⟨by simpa using hws, ?_⟩⟩
    exact iff_of_true ⟨closeWord st, List.getLast?_concat, isClose_closeWord st⟩ hend

/-- An effect of a word other than INIT is one for every false `init`. -/
theorem StreamEffect.of_not {init : Prop} {p p' : UnitCore} (hinit : ¬ init) (h : StreamEffect False p p') :
    StreamEffect init p p' := eq_false hinit ▸ h

/-- INIT ends the stream it abandons, if one is open (60_exceptions.md R102). -/
theorem StreamEffect.openStream {init : Prop} (hinit : init) (p : UnitCore) : StreamEffect init p p.openStream := by
  by_cases hact : p.state = .active
  · exact .ends [] .aborted (.inr hinit) hact (by simp) (by simp [hact])
  · exact .closed hact (by simp [hact])

/-- The error action ends the open stream, if there is one (60_exceptions.md R105). -/
theorem StreamEffect.raiseError (p : UnitCore) (code : Status) : StreamEffect False p (p.raiseError code) := by
  by_cases hact : p.state = .active
  · exact .ends [] code (.inl (by simp)) hact (by simp) (by simp [hact])
  · exact .closed hact (by simp [hact])

/-! ## The operations of the encoder -/

/-- ENC_SYM in ACTIVE goes on with the stream, with at most one CODEWORD (40_encoder.md R81). -/
theorem StreamEffect.takeSymbol {s : Symbol} {W : Width} {e e' : EncUnit} (hact : e.state = .active)
    (h : e.takeSymbol s W = .ok e') : StreamEffect False e.toUnitCore e'.toUnitCore := by
  rcases EncUnit.takeSymbol_ok h with ⟨-, rfl⟩ | ⟨_, _, _, -, -, -, rfl⟩ | ⟨w, _, -, -, -, ⟨-, rfl⟩ | ⟨-, rfl⟩⟩
  · exact .goesOn [] id hact hact (by simp) (by simp)
  · exact .goesOn [] id hact hact (by simp) (by simp)
  · exact .goesOn [codeWord w] id hact hact (by simp) rfl
  · exact .goesOn [codeWord w] id hact hact (by simp) rfl

/-- ENC_END in ACTIVE ends the stream after the pending match and the sentinel (40_encoder.md R82). -/
theorem StreamEffect.encFinish {e : EncUnit} (hact : e.state = .active) :
    StreamEffect False e.toUnitCore e.finish.toUnitCore := by
  rw [EncUnit.finish_eq]
  exact .ends (e.w.toList.map codeWord ++ [codeWord 256]) .ok (.inl nofun) hact
    (by simp [or_imp, forall_and]) (by simp)

/-- A dispatched command has its effect in ACTIVE only; elsewhere no stream is open (60_exceptions.md R104). -/
theorem StreamEffect.encDispatch {f : EncUnit → Except Fault EncUnit} {e e' : EncUnit}
    (hf : e.state = .active → f e = .ok e' → StreamEffect False e.toUnitCore e'.toUnitCore)
    (h : e.dispatch f = .ok e') : StreamEffect False e.toUnitCore e'.toUnitCore := by
  rcases e.dispatch_cases f with ⟨herr, hd⟩ | ⟨-, hd⟩ | ⟨hact, hd⟩ <;> rw [hd] at h
  · cases h
    exact .closed (by simp [herr]) rfl
  · cases h
    exact .raiseError _ _
  · exact hf hact h

/-! ## The operations of the decoder -/

/-- The sentinel in ACTIVE ends the stream (41_decoder.md R89). -/
theorem StreamEffect.decFinish {d : DecUnit} (hact : d.state = .active) :
    StreamEffect False d.toUnitCore d.finish.toUnitCore :=
  .ends [] .ok (.inl nofun) hact (by simp) rfl

/-- DEC_CODE in ACTIVE ends the stream by the sentinel or an error, or goes on with the symbols of a sequence
(41_decoder.md R89). -/
theorem StreamEffect.takeCode {c : Nat} {W : Width} {d d' : DecUnit} (hact : d.state = .active)
    (h : d.takeCode c W = .ok d') : StreamEffect False d.toUnitCore d'.toUnitCore := by
  have hsymbols (q : SymSeq) : ∀ o ∈ q.map symWord, isClose o = false := by simp
  rcases DecUnit.takeCode_ok h with ⟨-, rfl⟩ | ⟨-, -, rfl⟩ | ⟨-, -, -, -, rfl⟩ | ⟨-, -, q, -, rfl⟩ |
    ⟨_, next, _, _, -, -, -, -, -, ⟨-, rfl⟩ | ⟨-, rfl⟩⟩ | ⟨_, -, -, -, -, rfl⟩
  · exact .decFinish hact
  · exact .raiseError _ _
  · exact .raiseError _ _
  · exact .goesOn _ id hact hact (hsymbols q) rfl
  · exact .goesOn _ id hact hact (hsymbols next) rfl
  · exact .goesOn _ id hact hact (hsymbols next) rfl
  · exact .raiseError _ _

/-- A dispatched command has its effect in ACTIVE only; elsewhere no stream is open (60_exceptions.md R104). -/
theorem StreamEffect.decDispatch {f : DecUnit → Except Fault DecUnit} {d d' : DecUnit}
    (hf : d.state = .active → f d = .ok d' → StreamEffect False d.toUnitCore d'.toUnitCore)
    (h : d.dispatch f = .ok d') : StreamEffect False d.toUnitCore d'.toUnitCore := by
  rcases d.dispatch_cases f with ⟨hidle, hd⟩ | ⟨-, hd⟩ | ⟨hact, hd⟩ <;> rw [hd] at h
  · cases h
    exact .closed (by rcases hidle with h | h <;> simp [h]) rfl
  · cases h
    exact .raiseError _ _
  · exact hf hact h

/-! ## Every word on a unit -/

theorem StreamEffect.onEnc {init : Prop} {f : Width → EncUnit → Except Fault EncUnit} {s t : State}
    (hf : ∀ e, f s.param s.enc = .ok e → StreamEffect init s.enc.toUnitCore e.toUnitCore) (h : s.onEnc f = .next t) :
    StreamEffect init (s.unitCore .enc) (t.unitCore .enc) := by
  obtain ⟨e, he, rfl⟩ := State.onEnc_next.1 h
  exact hf e he

theorem StreamEffect.onDec {init : Prop} {f : Width → DecUnit → Except Fault DecUnit} {s t : State}
    (hf : ∀ d, f s.param s.dec = .ok d → StreamEffect init s.dec.toUnitCore d.toUnitCore) (h : s.onDec f = .next t) :
    StreamEffect init (s.unitCore .dec) (t.unitCore .dec) := by
  obtain ⟨d, hd, rfl⟩ := State.onDec_next.1 h
  exact hf d hd

/-- INIT of either unit opens a stream of the unit (40_encoder.md R80; 41_decoder.md R88). -/
theorem unitCore_of_exec_init {i : Instr} {s t : State} (hinit : i.isInit = true) (h : exec i s = .next t) :
    t.unitCore i.unit = (s.unitCore i.unit).openStream := by
  cases i with
  | encInit => cases h; rfl
  | decInit => cases h; rfl
  | encSym | encEnd | decCode | decEos => cases hinit

/-- Every command other than INIT has one of the effects on its unit's stream (60_exceptions.md R104). -/
theorem StreamEffect.exec_of_not_init {i : Instr} {s t : State} (hinit : i.isInit = false) (h : exec i s = .next t) :
    StreamEffect False (s.unitCore i.unit) (t.unitCore i.unit) := by
  cases i with
  | encInit => cases hinit
  | encSym sym =>
    rw [exec_encSym] at h
    exact .onEnc (fun _ => .encDispatch .takeSymbol) h
  | encEnd =>
    rw [exec_encEnd] at h
    refine .onEnc (fun _ => .encDispatch fun hact he => ?_) h
    cases he
    exact .encFinish hact
  | decInit => cases hinit
  | decCode code =>
    rw [exec_decCode] at h
    exact .onDec (fun _ => .decDispatch .takeCode) h
  | decEos =>
    rw [exec_decEos] at h
    refine .onDec (fun _ => .decDispatch fun _ hd => ?_) h
    cases hd
    exact .raiseError _ _

/-- An illegal word ends the open stream, if there is one (60_exceptions.md R96). -/
theorem StreamEffect.illegalWord (s : State) (u : UnitId) :
    StreamEffect False (s.unitCore u) ((s.illegalWord u).unitCore u) := by
  cases u with
  | enc =>
    show StreamEffect False s.enc.toUnitCore s.enc.illegalWord.toUnitCore
    unfold EncUnit.illegalWord
    split_ifs with herr
    · exact .closed (by simp [herr]) rfl
    · exact .raiseError _ _
  | dec =>
    show StreamEffect False s.dec.toUnitCore s.dec.illegalWord.toUnitCore
    unfold DecUnit.illegalWord
    split_ifs with herr
    · exact .closed (by simp [herr]) rfl
    · exact .raiseError _ _

/-- INIT is the one command with the word 0x1000 (30_encoding.md R66). -/
theorem encode_eq_initWord_iff (i : Instr) : encode i = 0x1000#16 ↔ i.isInit = true := by
  constructor
  · intro h
    have hdec := decode_encode i
    rw [h] at hdec
    cases hunit : i.unit with
    | enc => rw [hunit] at hdec; cases hdec; rfl
    | dec => rw [hunit] at hdec; cases hdec; rfl
  · intro h
    cases i with
    | encInit => rfl
    | decInit => rfl
    | encSym | encEnd | decCode | decEos => cases h

/-- Every word on a unit has one of the effects on its stream; the word of INIT is 0x1000 (60_exceptions.md R104). -/
theorem StreamEffect.runWord {u : UnitId} {cmd : CmdWord} {s t : State} (h : runWord u cmd s = .next t) :
    StreamEffect (cmd = 0x1000#16) (s.unitCore u) (t.unitCore u) := by
  rcases runWord_cases u cmd s with ⟨i, hdec, hrun⟩ | ⟨_, hdec, hrun⟩ <;> rw [hrun] at h
  · obtain rfl := decode_ok_unit hdec
    obtain rfl := encode_of_decode_ok hdec
    cases hinit : i.isInit with
    | true =>
      rw [unitCore_of_exec_init hinit h]
      exact .openStream ((encode_eq_initWord_iff i).2 hinit) _
    | false =>
      refine .of_not (fun hword => ?_) (.exec_of_not_init hinit h)
      rw [(encode_eq_initWord_iff i).1 hword] at hinit
      cases hinit
  · cases h
    refine .of_not (fun hword => ?_) (.illegalWord s u)
    subst hword
    cases u <;> cases hdec

/-- Settles O38: by the effects a word can have on its unit's stream. -/
theorem oneCloseWordEndsEachStream : Obligations.OneCloseWordEndsEachStream := by
  unfold Obligations.OneCloseWordEndsEachStream
  exact fun _ _ _ _ h => (StreamEffect.runWord h).emitted

end Sys2Proof.Machine
end

section
/-! The wire format (30_encoding.md R74 to R76). Codewords and bytes are groups of bits of one length each, so a bit of
the stream is found by its group and its place in the group; the bytes of a stream read back as its bits and then
padding, of which no whole codeword can be made. -/

namespace Sys2Proof.Machine

/-! ## Groups of one length -/

section Groups

variable {α β : Type} {f : α → List β} {n : ℕ}

theorem length_flatMap_of_length (hf : ∀ a, (f a).length = n) (l : List α) : (l.flatMap f).length = l.length * n := by
  simp [List.length_flatMap, hf]

/-- Group `j` of a list of groups of one length. -/
theorem take_drop_flatMap (hf : ∀ a, (f a).length = n) {l : List α} {j : ℕ} {a : α} (ha : l[j]? = some a) :
    ((l.flatMap f).drop (j * n)).take n = f a := by
  induction l generalizing j with
  | nil => simp at ha
  | cons b l ih =>
    cases j with
    | zero =>
      obtain rfl : b = a := by simpa using ha
      simp [← hf b]
    | succ j =>
      rw [Nat.succ_mul, Nat.add_comm, ← List.drop_drop, List.flatMap_cons, List.drop_left' (hf b)]
      exact ih (by simpa using ha)

/-- Element `t` of group `j`. -/
theorem getElem?_flatMap_group (hf : ∀ a, (f a).length = n) {l : List α} {j t : ℕ} {a : α} (ha : l[j]? = some a)
    (ht : t < n) : (l.flatMap f)[j * n + t]? = (f a)[t]? := by
  rw [← take_drop_flatMap hf ha, List.getElem?_take_of_lt ht, List.getElem?_drop]

end Groups

/-! ## Numbers and their bits -/

theorem bitsNat_concat (bs : List Bool) (b : Bool) : bitsNat (bs ++ [b]) = Nat.bit b (bitsNat bs) := by
  rw [bitsNat, List.foldl_append, Nat.bit_val]
  rfl

/-- The bits of the number a list of bits spells, from the last bit up. -/
theorem testBit_bitsNat (bs : List Bool) (i : ℕ) : (bitsNat bs).testBit i = bs.reverse.getD i false := by
  induction bs using List.reverseRecOn generalizing i with
  | nil => simp [bitsNat]
  | append_singleton bs b ih =>
    rw [bitsNat_concat, List.reverse_concat]
    cases i with
    | zero => simp
    | succ i => simpa [Nat.testBit_bit_succ] using ih i

@[simp] theorem length_codeBits (W : Width) (c : ℕ) : (codeBits W c).length = W.bits := by simp [codeBits]

@[simp] theorem length_byteBits (b : WireByte) : (byteBits b).length = 8 := by simp [byteBits]

theorem getElem?_codeBits {W : Width} {t : ℕ} (c : ℕ) (ht : t < W.bits) :
    (codeBits W c)[t]? = some (c.testBit (W.bits - 1 - t)) := by
  simp [codeBits, ht]

theorem getElem?_byteBits (b : WireByte) {t : ℕ} (ht : t < 8) : (byteBits b)[t]? = some (b.getLsbD (7 - t)) := by
  simp [byteBits, ht]

/-- A codeword is the number its bits spell (30_encoding.md R74, R76). -/
theorem bitsNat_codeBits {W : Width} {c : ℕ} (h : c < W.ncodes) : bitsNat (codeBits W c) = c := by
  refine Nat.eq_of_testBit_eq fun i => ?_
  rw [testBit_bitsNat, List.getD_eq_getElem?_getD]
  rcases Nat.lt_or_ge i W.bits with hi | hi
  · rw [List.getElem?_reverse (by simpa using hi), length_codeBits, getElem?_codeBits c (by omega), Option.getD_some]
    congr 1
    omega
  · have hbound : c < 2 ^ i := h.trans_le (Nat.pow_le_pow_right (by decide) hi)
    rw [List.getElem?_eq_none (by simpa using hi), Nat.testBit_lt_two_pow hbound, Option.getD_none]

/-! ## The packed bytes -/

/-- Bit `7 - t` of byte `j` is stream bit `8 j + t` (30_encoding.md R75). -/
theorem getLsbD_packByte (bs : List Bool) (j : ℕ) {t : ℕ} (ht : t < 8) :
    (packByte bs j).getLsbD (7 - t) = bs.getD (8 * j + t) false := by
  rw [packByte, BitVec.getLsbD_ofNat, testBit_bitsNat, List.getD_eq_getElem?_getD,
    List.getElem?_reverse (by simp; omega)]
  have hin : 7 - t < 8 := by omega
  have hback : 7 - (7 - t) = t := by omega
  simp [hin, hback, ht]

theorem length_packBits (bs : List Bool) : (packBits bs).length = (bs.length + 7) / 8 := by simp [packBits]

/-- Stream bit `p` is bit `7 - (p mod 8)` of byte `p div 8`, zero after the stream's end (30_encoding.md R75). -/
theorem getLsbD_of_getElem?_packBits {bs : List Bool} {p : ℕ} {b : WireByte} (h : (packBits bs)[p / 8]? = some b) :
    b.getLsbD (7 - p % 8) = bs.getD p false := by
  obtain ⟨hlt, rfl⟩ := List.getElem?_eq_some_iff.1 h
  simp only [packBits, List.getElem_map, List.getElem_range]
  rw [getLsbD_packByte _ _ (Nat.mod_lt _ (by decide)), Nat.div_add_mod]

/-- Every bit of the stream is in a byte (30_encoding.md R75). -/
theorem exists_byte_of_lt {bs : List Bool} {p : ℕ} (h : p < bs.length) :
    ∃ b, (packBits bs)[p / 8]? = some b ∧ b.getLsbD (7 - p % 8) = bs.getD p false := by
  have hbyte : p / 8 < (packBits bs).length := by rw [length_packBits]; omega
  exact ⟨_, List.getElem?_eq_getElem hbyte, getLsbD_of_getElem?_packBits (List.getElem?_eq_getElem hbyte)⟩

theorem length_streamBits (W : Width) (codes : List ℕ) : (streamBits W codes).length = codes.length * W.bits :=
  length_flatMap_of_length (length_codeBits W) codes

/-- Bit `t` of codeword `j`, most significant first, is stream bit `jW + t` (30_encoding.md R74). -/
theorem getElem?_streamBits {W : Width} {codes : List ℕ} {j t c : ℕ} (hc : codes[j]? = some c) (ht : t < W.bits) :
    (streamBits W codes)[j * W.bits + t]? = some (c.testBit (W.bits - 1 - t)) := by
  rw [streamBits, getElem?_flatMap_group (length_codeBits W) hc ht, getElem?_codeBits c ht]

/-- Settles O54: a stream bit by its codeword and by its byte. -/
theorem wireBitOrder : Obligations.WireBitOrder := by
  unfold Obligations.WireBitOrder
  intro W codes
  refine ⟨by rw [packCodes, length_packBits, length_streamBits], fun j t c hc ht => ?_, fun p b hp hb => ?_⟩
  · have hbit := getElem?_streamBits hc ht
    obtain ⟨hlt, -⟩ := List.getElem?_eq_some_iff.1 hbit
    obtain ⟨b, hb, hlsb⟩ := exists_byte_of_lt hlt
    exact ⟨b, hb, by rw [hlsb, List.getD_eq_getElem?_getD, hbit, Option.getD_some]⟩
  · rw [getLsbD_of_getElem?_packBits hb]
    exact List.getD_eq_default _ _ (by rwa [length_streamBits])

/-! ## Reading back -/

theorem length_readerBits (bytes : List WireByte) : (readerBits bytes).length = bytes.length * 8 :=
  length_flatMap_of_length length_byteBits bytes

/-- The reader sees the stream's bits, and padding after them (30_encoding.md R75, R76). -/
theorem prefix_readerBits_packBits (bs : List Bool) : bs <+: readerBits (packBits bs) := by
  refine List.prefix_iff_getElem?.2 fun p hp => ?_
  obtain ⟨b, hb, hlsb⟩ := exists_byte_of_lt hp
  have hbit := getElem?_flatMap_group length_byteBits hb (Nat.mod_lt p (by decide))
  rw [Nat.div_add_mod', getElem?_byteBits b (Nat.mod_lt p (by decide)), hlsb, List.getD_eq_getElem _ _ hp] at hbit
  exact hbit

/-- The reader's codeword `j` of a stream is codeword `j`, whatever follows the stream (30_encoding.md R76). -/
theorem readCode_of_prefix {W : Width} {codes : List ℕ} {bs : List Bool} (h : streamBits W codes <+: bs) {j c : ℕ}
    (hj : codes[j]? = some c) (hc : c < W.ncodes) : readCode W bs j = c := by
  obtain ⟨pad, rfl⟩ := h
  obtain ⟨hlt, -⟩ := List.getElem?_eq_some_iff.1 hj
  have hfits : j * W.bits + W.bits ≤ (streamBits W codes).length := by
    rw [length_streamBits, ← Nat.succ_mul]
    exact Nat.mul_le_mul_right _ hlt
  rw [readCode, List.drop_append_of_le_length (by omega),
    List.take_append_of_le_length (by rw [List.length_drop]; omega), streamBits,
    take_drop_flatMap (length_codeBits W) hj, bitsNat_codeBits hc]

/-- The padding is too short for a codeword, so the reader stops after the packed ones (30_encoding.md R75, R76). -/
theorem count_unpacked (W : Width) (codes : List ℕ) :
    (readerBits (packCodes W codes)).length / W.bits = codes.length := by
  have hW := W.bits_range
  rw [length_readerBits, packCodes, length_packBits, length_streamBits]
  refine Nat.div_eq_of_lt_le (by omega) ?_
  rw [Nat.succ_mul]
  omega

/-- Settles O55: the reader makes as many codewords as were packed, each the packed one. -/
theorem unpackOfPack : Obligations.UnpackOfPack := by
  unfold Obligations.UnpackOfPack
  intro W codes hcodes
  rw [unpackCodes, count_unpacked]
  refine List.ext_getElem (by simp) fun j _ hj => ?_
  rw [List.getElem_map, List.getElem_range]
  exact readCode_of_prefix (prefix_readerBits_packBits _) (List.getElem?_eq_getElem hj) (hcodes _ (List.getElem_mem hj))

end Sys2Proof.Machine
end

section
/-! The encoder's commands, one at a time (40_encoder.md R80 to R82): the next state each gives, and what ENC_SYM and
ENC_END leave unchanged. The loops of the two INITs write every code of the code space, so they build the dictionaries
the model installs. -/

namespace Sys2Proof.Machine

/-! ## ENC_INIT -/

/-- INIT's shared part, as one record (60_exceptions.md R102, R108). -/
theorem UnitCore.openStream_eq (p : UnitCore) :
    p.openStream = { state := .active, err := .ok, out := p.queueAtInit } := by
  rw [UnitCore.queueAtInit, ← UnitCore.openStream_out]
  rfl

/-- ENC_INIT's effect, as one record (40_encoder.md R80). -/
theorem EncUnit.init_eq (e : EncUnit) :
    e.init = { state := .active, err := .ok, out := e.toUnitCore.queueAtInit, dict := freshDict, nextCode := 257,
               w := none } := by
  rw [EncUnit.init, UnitCore.openStream_eq]

/-- The STATUS of a stream just begun: 257 is not `2^W` for any width (40_encoder.md R80, 10_state.md R30). -/
theorem statusWord_begun (W : Width) : statusWord W 257 .ok false .active = 0x01010001#32 := by
  cases W <;> decide

/-- Settles O16: ENC_INIT is its effect in every state, and a fresh dictionary holds the literals and nothing else. -/
theorem encInitStartsStream : Obligations.EncInitStartsStream := by
  unfold Obligations.EncInitStartsStream
  intro s
  refine ⟨_, exec_encInit_next s, by rw [EncUnit.init_eq], (freshDict_learned s.param).literals,
    fun _ hc => freshDict_none hc, statusWord_begun s.param⟩

/-! ## ENC_SYM -/

/-- ENC_SYM whose extended match is stored (40_encoder.md R81 (b)). -/
theorem EncUnit.takeSymbol_extends {W : Width} {e : EncUnit} {s : Symbol} {w n : Nat} {q : SymSeq} (hw : e.w = some w)
    (hread : e.dict.read w = some q) (hfound : e.dict.lookup (q ++ [s]) = some n) :
    e.takeSymbol s W = .ok { e with w := some n } := by
  rw [EncUnit.takeSymbol_pending s hw hread, hfound]

/-- ENC_SYM whose extended match is not stored: it emits the match, learns while there is room, and restarts
(40_encoder.md R81). -/
theorem EncUnit.takeSymbol_restarts {W : Width} {e : EncUnit} {s : Symbol} {w : Nat} {q : SymSeq} (hw : e.w = some w)
    (hread : e.dict.read w = some q) (hnew : e.dict.lookup (q ++ [s]) = none) :
    e.takeSymbol s W = .ok { (e.emit (codeWord w)).learn W (q ++ [s]) with w := some (symCode s) } := by
  rw [EncUnit.takeSymbol_pending s hw hread, hnew, EncUnit.restart_eq]

/-- Settles O18: in ACTIVE ENC_SYM is its effect, which starts a match. -/
theorem encSymFirstSymbol : Obligations.EncSymFirstSymbol := by
  unfold Obligations.EncSymFirstSymbol
  exact fun s sym hact hw => exec_encSym_active hact (EncUnit.takeSymbol_first sym hw)

/-- Settles O19: Lookup finds the one code that holds the extended sequence. -/
theorem encSymExtendsMatch : Obligations.EncSymExtendsMatch := by
  unfold Obligations.EncSymExtendsMatch
  intro s sym w n q hact hw hwf hread hn hunique
  exact exec_encSym_active hact (EncUnit.takeSymbol_extends hw hread (Memory.lookup_eq_some hwf hn hunique))

/-- Settles O20: Lookup finds nothing, and with room left one write learns the extended sequence. -/
theorem encSymEmitsAndLearns : Obligations.EncSymEmitsAndLearns := by
  unfold Obligations.EncSymEmitsAndLearns
  intro s sym w q hact hw hwf hread habsent hroom
  have htake := EncUnit.takeSymbol_restarts (W := s.param) hw hread ((Memory.lookup_eq_none_iff hwf _).2 habsent)
  rw [EncUnit.restart_eq, if_pos hroom] at htake
  exact ⟨_, exec_encSym_active hact htake, rfl, s.enc.dict.read_write_same _ _,
    fun c hc => s.enc.dict.read_write_other _ hc⟩

/-- Settles O21: Lookup finds nothing, and with the dictionary frozen nothing is written. -/
theorem encSymFrozenEmitsOnly : Obligations.EncSymFrozenEmitsOnly := by
  unfold Obligations.EncSymFrozenEmitsOnly
  intro s sym w q hact hw hwf hread habsent hfull
  have htake := EncUnit.takeSymbol_restarts (W := s.param) hw hread ((Memory.lookup_eq_none_iff hwf _).2 habsent)
  rw [EncUnit.restart_eq, if_neg (Nat.not_lt.2 hfull)] at htake
  exact exec_encSym_active hact htake

/-! ## ENC_END -/

/-- Settles O22: in ACTIVE ENC_END is its effect; the two words written out are CODEWORD(256) and CLOSEWORD(OK). -/
theorem encEndClosesStream : Obligations.EncEndClosesStream := by
  unfold Obligations.EncEndClosesStream
  intro s hact
  rw [exec_encEnd_active hact, EncUnit.finish_eq]
  rfl

/-! ## What ENC_SYM and ENC_END leave unchanged -/

/-- What a command other than INIT leaves of the dictionary, the counter and the status code (20_memory.md R41;
40_encoder.md R81, R82). -/
structure EncUnit.Frame (W : Width) (e e' : EncUnit) : Prop where
  counter : e'.nextCode = e.nextCode ∨ (e.nextCode < W.ncodes ∧ e'.nextCode = e.nextCode + 1)
  dict : e'.nextCode = e.nextCode → e'.dict = e.dict
  reads : ∀ c, c ≠ e.nextCode → e'.dict.read c = e.dict.read c
  err : e.state = .active → e'.err = e.err

/-- A record with the dictionary, the counter and, in ACTIVE, the status code as they were. -/
structure EncUnit.Kept (e e' : EncUnit) : Prop where
  dict : e'.dict = e.dict
  nextCode : e'.nextCode = e.nextCode
  err : e.state = .active → e'.err = e.err

theorem EncUnit.Frame.of_kept {W : Width} {e e' : EncUnit} (h : e.Kept e') : e.Frame W e' where
  counter := .inl h.nextCode
  dict _ := h.dict
  reads _ _ := by rw [h.dict]
  err := h.err

/-- ENC_SYM in ACTIVE writes at most the entry at the counter (40_encoder.md R81). -/
theorem EncUnit.Frame.takeSymbol {W : Width} {e e' : EncUnit} {s : Symbol} (h : e.takeSymbol s W = .ok e') :
    e.Frame W e' := by
  rcases EncUnit.takeSymbol_ok h with ⟨-, rfl⟩ | ⟨_, _, _, -, -, -, rfl⟩ | ⟨_, _, -, -, -, ⟨hroom, rfl⟩ | ⟨-, rfl⟩⟩
  · exact .of_kept ⟨rfl, rfl, fun _ => rfl⟩
  · exact .of_kept ⟨rfl, rfl, fun _ => rfl⟩
  · exact
      { counter := .inr ⟨hroom, rfl⟩
        dict := fun hsame => absurd hsame (Nat.succ_ne_self _)
        reads := fun _ hc => e.dict.read_write_other _ hc
        err := fun _ => rfl }
  · exact .of_kept ⟨rfl, rfl, fun _ => rfl⟩

/-- ENC_END in ACTIVE emits and closes, and learns nothing (40_encoder.md R82 (b)). -/
theorem EncUnit.Kept.finish (e : EncUnit) : e.Kept e.finish := by
  rw [EncUnit.finish_eq]
  exact ⟨rfl, rfl, fun _ => rfl⟩

/-- What the record keeps outside ACTIVE, and its effect in ACTIVE gives, a dispatched command gives: elsewhere it
raises at most an error (60_exceptions.md R104, R105). -/
theorem EncUnit.dispatch_of_kept {P : EncUnit → Prop} {f : EncUnit → Except Fault EncUnit} {e e' : EncUnit}
    (hkept : ∀ a, e.Kept a → P a) (hf : f e = .ok e' → P e') (h : e.dispatch f = .ok e') : P e' := by
  rcases e.dispatch_cases f with ⟨-, hd⟩ | ⟨hclosed, hd⟩ | ⟨-, hd⟩ <;> rw [hd] at h
  · cases h
    exact hkept e ⟨rfl, rfl, fun _ => rfl⟩
  · cases h
    refine hkept _ ⟨rfl, rfl, fun hact => ?_⟩
    rcases hclosed with hs | hs <;> cases hs.symm.trans hact
  · exact hf h

theorem exec_encSym_frame {s t : State} {sym : Symbol} (h : exec (.encSym sym) s = .next t) :
    s.enc.Frame s.param t.enc := by
  rw [exec_encSym] at h
  obtain ⟨e, he, rfl⟩ := State.onEnc_next.1 h
  exact EncUnit.dispatch_of_kept (fun _ => .of_kept) .takeSymbol he

theorem exec_encEnd_kept {s t : State} (h : exec .encEnd s = .next t) : s.enc.Kept t.enc := by
  rw [exec_encEnd] at h
  obtain ⟨e, he, rfl⟩ := State.onEnc_next.1 h
  refine EncUnit.dispatch_of_kept (fun _ => id) (fun hfin => ?_) he
  cases hfin
  exact .finish s.enc

/-- A command of the encoder changes ENC only (20_memory.md R56). -/
theorem exec_enc_others {i : Instr} {s t : State} (hunit : i.unit = .enc) (h : exec i s = .next t) :
    t.param = s.param ∧ t.host = s.host ∧ t.dec = s.dec := by
  obtain ⟨f, hf⟩ := exec_eq_onEnc hunit
  rw [hf] at h
  obtain ⟨e, -, rfl⟩ := State.onEnc_next.1 h
  exact ⟨rfl, rfl, rfl⟩

/-- What ENC_SYM and ENC_END leave of the encoder. -/
theorem exec_enc_frame {i : Instr} {s t : State} (hunit : i.unit = .enc) (hinit : i.isInit = false)
    (h : exec i s = .next t) : s.enc.Frame s.param t.enc := by
  cases i with
  | encSym sym => exact exec_encSym_frame h
  | encEnd => exact .of_kept (exec_encEnd_kept h)
  | encInit => cases hinit
  | decInit | decCode | decEos => cases hunit

/-- Settles O24: both are operations of ENC that append to its queue, and each keeps its frame. -/
theorem encoderFrame : Obligations.EncoderFrame := by
  unfold Obligations.EncoderFrame
  intro i s t hunit hinit h
  obtain ⟨hparam, hhost, hdec⟩ := exec_enc_others hunit h
  obtain ⟨hcounter, hdict, hreads, herr⟩ := exec_enc_frame hunit hinit h
  have hout := exec_out_prefix h
  rw [hunit] at hout
  refine ⟨hparam, hhost, hdec, hout, hcounter, hdict, hreads, ?_, herr⟩
  rintro rfl
  exact ⟨(exec_encEnd_kept h).dict, (exec_encEnd_kept h).nextCode⟩

/-! ## The loops of INIT -/

/-- What any write leaves to be read, in canonical form (20_memory.md R41, R46). -/
theorem Memory.read_write {m : Memory} (h : m.wf) (c a : Nat) (v : Option SymSeq) :
    (m.write c v).read a = if a = c then v else m.read a := by
  split_ifs with hac
  · subst hac
    cases v with
    | none => exact Memory.read_erase_same h a
    | some q => exact m.read_write_same a q
  · cases v with
    | none => exact m.read_erase_other hac
    | some q => exact m.read_write_other q hac

/-- A loop of writes keeps the canonical form. -/
theorem Memory.wf_writes {m : Memory} (h : m.wf) (v : Nat → Option SymSeq) (cs : List Nat) :
    Memory.wf (cs.foldl (fun m c => m.write c (v c)) m) := by
  induction cs generalizing m with
  | nil => exact h
  | cons c cs ih => exact ih (Memory.wf_write h c (v c))

/-- A loop of writes, each at its loop variable, leaves the written values and the other entries (40_encoder.md R80;
41_decoder.md R88). -/
theorem Memory.read_writes {m : Memory} (h : m.wf) (v : Nat → Option SymSeq) (cs : List Nat) (a : Nat) :
    Memory.read (cs.foldl (fun m c => m.write c (v c)) m) a = if a ∈ cs then v a else m.read a := by
  induction cs generalizing m with
  | nil => simp
  | cons c cs ih =>
    rw [List.foldl_cons, ih (Memory.wf_write h c (v c)), Memory.read_write h]
    by_cases hac : a = c
    · simp [hac]
    · simp [hac]

/-- A memory in the code space reads `⊥` from its end on (20_memory.md R40, R45). -/
theorem Memory.read_eq_none_of_within {m : Memory} {n a : Nat} (h : m.wf) (hw : m.within n) (ha : n ≤ a) :
    m.read a = none := by
  cases hr : m.read a with
  | none => rfl
  | some q => exact absurd (Memory.lt_of_read h hw hr) (Nat.not_lt.2 ha)

/-- ENC_INIT's loops write every code of the code space (40_encoder.md R80). -/
theorem encInitLoops_eq (W : Width) {m : Memory} (h : m.wf) (hw : m.within W.ncodes) :
    encInitLoops W m = freshDict := by
  have hW := W.ncodes_range
  have hlit := Memory.wf_writes h (fun s => some [BitVec.ofNat 8 s]) (List.range nsym)
  refine Memory.ext_read (Memory.wf_writes hlit (fun _ => none) _) freshDict_wf fun a => ?_
  rw [encInitLoops, Memory.read_writes hlit fun _ => none, Memory.read_writes h fun s => some [BitVec.ofNat 8 s]]
  simp only [List.mem_range'_1, List.mem_range, nsym_eq]
  split_ifs with hfree hlow
  · exact (freshDict_none hfree.1).symm
  · exact (freshDict_literal hlow).symm
  · rw [freshDict_none (by omega), Memory.read_eq_none_of_within h hw (by omega)]

/-- DEC_INIT's loops and its write at 256 write every code of the code space (41_decoder.md R88). -/
theorem decInitLoops_eq (W : Width) {m : Memory} (h : m.wf) (hw : m.within W.ncodes) :
    decInitLoops W m = freshTable := by
  have hW := W.ncodes_range
  have hlit := Memory.wf_writes h (fun s => some [BitVec.ofNat 8 s]) (List.range nsym)
  have hsent := Memory.wf_write hlit sentinel (some [])
  refine Memory.ext_read (Memory.wf_writes hsent (fun _ => none) _) freshTable_wf fun a => ?_
  rw [decInitLoops, Memory.read_writes hsent fun _ => none, Memory.read_write hlit,
    Memory.read_writes h fun s => some [BitVec.ofNat 8 s]]
  simp only [List.mem_range'_1, List.mem_range, nsym_eq, firstLearned_eq]
  split_ifs with hfree hsentinel hlow
  · exact (freshTable_none hfree.1).symm
  · rw [hsentinel, freshTable_sentinel]
  · exact (freshTable_literal hlow).symm
  · rw [freshTable_none (by omega), Memory.read_eq_none_of_within h hw (by omega)]

/-- Settles O44: the loops leave canonical memories that read as the fresh ones at every code. -/
theorem initLoopsBuildFreshDictionaries : Obligations.InitLoopsBuildFreshDictionaries := by
  unfold Obligations.InitLoopsBuildFreshDictionaries
  exact fun W _ h hw => ⟨encInitLoops_eq W h hw, decInitLoops_eq W h hw⟩

end Sys2Proof.Machine
end

section
/-! A whole compress stream (40_encoder.md R83 to R87). While a match is pending, what is still to be matched is its
sequence and the symbols to come; the induction is on the symbols to come. ENC_SYM and ENC_END emit the pending match
exactly when its sequence is the source's longest match, since with a sequence a dictionary holds its beginnings. -/

namespace Sys2Proof.Machine

/-! ## The longest match -/

/-- With a sequence its nonempty beginnings are stored (10_state.md R25 (5)). -/
theorem EncUnit.OpenInv.read_prefix {W : Width} {e : EncUnit} (h : e.OpenInv W) {p r : SymSeq} {c : Nat}
    (hread : e.dict.read c = some r) (hpre : p <+: r) (hp : p ≠ []) : ∃ c', e.dict.read c' = some p := by
  induction r using List.reverseRecOn generalizing c with
  | nil => exact absurd (List.prefix_nil.1 hpre) hp
  | append_singleton r x ih =>
    rcases List.prefix_concat_iff.1 hpre with rfl | hpre
    · exact ⟨c, hread⟩
    · have hc : 257 ≤ c := by
        by_contra hlt
        have hlit := h.learned.read_literal (c := c) (by have := h.ne_sentinel hread; omega)
        have hlen := congrArg List.length (Option.some.inj (hread.symm.trans hlit))
        obtain rfl : r = [] := by simpa using hlen
        exact hp (List.prefix_nil.1 hpre)
      obtain ⟨c', -, -, hread'⟩ := h.learned.closed c _ hc hread
      rw [List.dropLast_concat] at hread'
      exact ih hread' hpre

/-- In a good dictionary Lookup finds the code a sequence is read from (10_state.md R25 (6)). -/
theorem EncUnit.GoodDict.lookup_eq {W : Width} {e : EncUnit} (h : e.GoodDict W) {w : Nat} {q : SymSeq}
    (hread : e.dict.read w = some q) : e.dict.lookup q = some w :=
  Memory.lookup_eq_some h.wf hread fun c hc => h.opened.unique c w q hc hread

/-- The longest stored beginning, by what is stored at a length and not above it. -/
theorem Memory.longestLen_eq {m : Memory} {text : SymSeq} {n : Nat} (hstored : (m.lookup (text.take n)).isSome) :
    ∀ {bound : Nat}, n ≤ bound → (∀ k, n < k → k ≤ bound → m.lookup (text.take k) = none) →
      m.longestLen text bound = n
  | 0, hle, _ => (Nat.le_zero.1 hle).symm
  | bound + 1, hle, habsent => by
    rw [Memory.longestLen]
    rcases Nat.lt_succ_iff_lt_or_eq.1 (Nat.lt_succ_of_le hle) with hlt | rfl
    · rw [if_neg (by simp [habsent (bound + 1) hlt le_rfl])]
      exact Memory.longestLen_eq hstored (Nat.le_of_lt_succ hlt) fun k hk hkb => habsent k hk (by omega)
    · rw [if_pos hstored]

/-- A stored sequence is the longest match of a text it begins when the text ends there or its extension by the next
symbol is not stored (20_memory.md R42; 40_encoder.md R83). -/
theorem EncUnit.GoodDict.longestMatch_eq {W : Width} {e : EncUnit} (h : e.GoodDict W) {w : Nat} {q rest : SymSeq}
    (hread : e.dict.read w = some q) (hmax : ∀ s ∈ rest.head?, e.dict.lookup (q ++ [s]) = none) :
    e.dict.longestMatch (q ++ rest) = q := by
  have hlen : e.dict.longestLen (q ++ rest) (q ++ rest).length = q.length := by
    refine Memory.longestLen_eq (by simp [h.lookup_eq hread]) (by simp) fun k hlt hle => ?_
    cases rest with
    | nil => exact absurd hle (by simpa using hlt)
    | cons s rest =>
      refine (Memory.lookup_eq_none_iff h.wf _).2 fun c hc => ?_
      have hpre : q ++ [s] <+: (q ++ s :: rest).take k := List.prefix_take_iff.2 ⟨by simp, by simpa using hlt⟩
      obtain ⟨c', hc'⟩ := h.opened.read_prefix hc hpre (by simp)
      exact (Memory.lookup_eq_none_iff h.wf _).1 (hmax s rfl) c' hc'
  rw [Memory.longestMatch, hlen, List.take_left]

/-! ## The source's algorithm, match by match -/

/-- One round of the source's loop: the longest match's code, what is learned, the rest (40_encoder.md R81). -/
theorem compressFrom_succ {W : Width} {fuel next next' w : Nat} {m m' : Memory} {q rest : SymSeq} {r : Compressed}
    (hq : q ≠ []) (hmatch : m.longestMatch (q ++ rest) = q) (hfound : m.lookup q = some w)
    (hlearn : compressLearn W (q ++ rest) q m next = (m', next')) (hrest : compressFrom W fuel rest m' next' = r) :
    compressFrom W (fuel + 1) (q ++ rest) m next = { r with codes := w :: r.codes } := by
  obtain ⟨x, q, rfl⟩ := List.exists_cons_of_ne_nil hq
  rw [compressFrom, hmatch, hfound, hlearn, List.drop_left, hrest]
  · rfl
  · simp

/-- A round of the source's loop on a good dictionary, with fuel for the text: it emits the code of a stored sequence
that cannot be extended (20_memory.md R42; 40_encoder.md R83). -/
theorem EncUnit.GoodDict.compressFrom_eq {W : Width} {e : EncUnit} (h : e.GoodDict W) {fuel next' w : Nat} {m' : Memory}
    {q rest : SymSeq} {r : Compressed} (hread : e.dict.read w = some q)
    (hmax : ∀ s ∈ rest.head?, e.dict.lookup (q ++ [s]) = none)
    (hlearn : compressLearn W (q ++ rest) q e.dict e.nextCode = (m', next'))
    (hrest : ∀ fuel, rest.length ≤ fuel → compressFrom W fuel rest m' next' = r) (hfuel : (q ++ rest).length ≤ fuel) :
    compressFrom W fuel (q ++ rest) e.dict e.nextCode = { r with codes := w :: r.codes } := by
  have hq : q ≠ [] := h.opened.learned.ne_nil_of_read hread (h.opened.ne_sentinel hread)
  have hpos := List.length_pos_of_ne_nil hq
  rw [List.length_append] at hfuel
  obtain ⟨fuel, rfl⟩ := Nat.exists_eq_add_one.2 (show 0 < fuel by omega)
  exact compressFrom_succ hq (h.longestMatch_eq hread hmax) (h.lookup_eq hread) hlearn (hrest fuel (by omega))

/-- At the end of the text there is only the sentinel left (40_encoder.md R82). -/
theorem compressFrom_nil (W : Width) (fuel : Nat) (m : Memory) (next : Nat) :
    compressFrom W fuel [] m next = ⟨[sentinel], m, next⟩ := by
  cases fuel <;> rfl

/-- Nothing is learned at the end of the text (40_encoder.md R82 (b)). -/
theorem compressLearn_end (W : Width) (q : SymSeq) (m : Memory) (next : Nat) :
    compressLearn W (q ++ []) q m next = (m, next) := by
  simp [compressLearn]

/-- Before the end of the text the source learns what ENC_SYM learns (40_encoder.md R81). -/
theorem compressLearn_eq_learn (W : Width) (q rest : SymSeq) (s : Symbol) (e : EncUnit) :
    compressLearn W (q ++ s :: rest) q e.dict e.nextCode =
      ((e.learn W (q ++ [s])).dict, (e.learn W (q ++ [s])).nextCode) := by
  have htake : (q ++ s :: rest).take (q.length + 1) = q ++ [s] := by simp [List.take_length_add_append]
  rw [compressLearn, EncUnit.learn, htake]
  by_cases hroom : e.nextCode < W.ncodes <;> simp [hroom]

/-! ## The end of a stream -/

/-- `e'` ends the stream that `e` has open with `text` still to be matched (the pending match's sequence, if there is
one, and the symbols to come): the data codewords still emitted are `ds` (40_encoder.md R83 to R87). -/
structure EncUnit.Ends (W : Width) (text : SymSeq) (ds : List Nat) (e e' : EncUnit) : Prop where
  state : e'.state = .done
  err : e'.err = e.err
  out : e'.out = e.out ++ ds.map codeWord ++ [codeWord sentinel, closeWord .ok]
  good : e'.GoodDict W
  counter : e'.nextCode = min (e.nextCode + (ds.length - 1)) W.ncodes
  kept : ∀ c q, e.dict.read c = some q → e'.dict.read c = some q
  spelled : ∃ qs : List SymSeq, ds.map e'.dict.read = qs.map some ∧ qs.flatten = text
  source : ∀ fuel, text.length ≤ fuel →
    compressFrom W fuel text e.dict e.nextCode = ⟨ds ++ [sentinel], e'.dict, e'.nextCode⟩

section Ends

variable {W : Width} {text : SymSeq} {ds : List Nat} {e e' : EncUnit}

/-- A data codeword is an entry's code, in the code space and not 256 (40_encoder.md R84). -/
theorem EncUnit.Ends.mem (h : e.Ends W text ds e') {d : Nat} (hd : d ∈ ds) : d < W.ncodes ∧ d ≠ 256 := by
  obtain ⟨qs, hqs, -⟩ := h.spelled
  have hmem : e'.dict.read d ∈ qs.map some := hqs ▸ List.mem_map_of_mem hd
  obtain ⟨q, -, hq⟩ := List.mem_map.1 hmem
  exact ⟨Memory.lt_of_read h.good.wf h.good.within hq.symm, h.good.opened.ne_sentinel hq.symm⟩

/-- A data codeword's sequence is an entry, 1 to MAX_SEQ symbols long (40_encoder.md R87; 20_memory.md R40). -/
theorem EncUnit.Ends.length_bounds (h : e.Ends W text ds e') {qs : List SymSeq}
    (hqs : ds.map e'.dict.read = qs.map some) {q : SymSeq} (hq : q ∈ qs) : 1 ≤ q.length ∧ q.length ≤ W.maxSeq := by
  have hmem : some q ∈ ds.map e'.dict.read := hqs ▸ List.mem_map_of_mem hq
  obtain ⟨d, -, hread⟩ := List.mem_map.1 hmem
  obtain ⟨hpos, hlen⟩ := h.good.opened.learned.length_bounds hread (h.good.opened.ne_sentinel hread)
  have hnext := h.good.opened.learned.counter.2
  rw [Width.maxSeq_eq]
  exact ⟨hpos, by omega⟩

/-- A stream with text left has a data codeword left (40_encoder.md R87). -/
theorem EncUnit.Ends.length_pos (h : e.Ends W text ds e') (htext : text ≠ []) : 1 ≤ ds.length := by
  obtain ⟨qs, hqs, rfl⟩ := h.spelled
  refine List.length_pos_of_ne_nil fun hds => htext ?_
  obtain rfl : qs = [] := by simpa [hds] using hqs
  rfl

/-- A stream has at most one data codeword a symbol (40_encoder.md R87). -/
theorem EncUnit.Ends.length_le (h : e.Ends W text ds e') : ds.length ≤ text.length := by
  obtain ⟨qs, hqs, rfl⟩ := h.spelled
  have hlen : ds.length = (qs.map List.length).length := by simpa using congrArg List.length hqs
  rw [hlen, List.length_flatten]
  refine List.length_le_sum_of_one_le _ fun n hn => ?_
  obtain ⟨q, hq, rfl⟩ := List.mem_map.1 hn
  exact (h.length_bounds hqs hq).1

end Ends

/-- ENC_END, when the text still to be matched is what the pending match, if there is one, stands for (40_encoder.md
R82). -/
theorem EncUnit.Ends.finish {W : Width} {text : SymSeq} {e : EncUnit} (h : e.GoodDict W)
    (hspelled : ∃ qs : List SymSeq, e.w.toList.map e.dict.read = qs.map some ∧ qs.flatten = text)
    (hsource : ∀ fuel, text.length ≤ fuel →
      compressFrom W fuel text e.dict e.nextCode = ⟨e.w.toList ++ [sentinel], e.dict, e.nextCode⟩) :
    e.Ends W text e.w.toList e.finish := by
  rw [EncUnit.finish_eq]
  exact
    { state := rfl
      err := rfl
      out := rfl
      good := h.of_dict_eq rfl rfl nofun
      counter := by
        have hcount := h.opened.learned.counter.2
        cases e.w <;> simp [hcount]
      kept := fun _ _ => id
      spelled := hspelled
      source := hsource }

/-- ENC_END with no match pending (40_encoder.md R82 (a)). -/
theorem EncUnit.Ends.finish_of_none {W : Width} {e : EncUnit} (h : e.GoodDict W) (hw : e.w = none) :
    e.Ends W [] [] e.finish := by
  have hend := Ends.finish (text := []) h ⟨[], by simp [hw], rfl⟩ fun fuel _ => by
    rw [hw]
    exact compressFrom_nil W fuel e.dict e.nextCode
  rwa [hw] at hend

/-- ENC_END with a match pending, which the source matches last (40_encoder.md R82 (b)). -/
theorem EncUnit.Ends.finish_of_some {W : Width} {e : EncUnit} {w : Nat} {q : SymSeq} (h : e.GoodDict W)
    (hw : e.w = some w) (hread : e.dict.read w = some q) : e.Ends W (q ++ []) [w] e.finish := by
  have hend := Ends.finish (text := q ++ []) h ⟨[q], by simp [hw, hread], rfl⟩ fun fuel hfuel => by
    rw [hw]
    exact h.compressFrom_eq (rest := []) hread nofun (compressLearn_end W q e.dict e.nextCode)
      (fun fuel _ => compressFrom_nil W fuel _ _) hfuel
  rwa [hw] at hend

/-- Which match is pending shows in the text still to be matched only. -/
theorem EncUnit.Ends.of_w {W : Width} {text : SymSeq} {ds : List Nat} {e e' : EncUnit} {w : Option Nat}
    (h : ({ e with w := w } : EncUnit).Ends W text ds e') : e.Ends W text ds e' := { h with }

/-- Learning moves the counter up to `2^W` (40_encoder.md R85). -/
theorem EncUnit.learn_nextCode {W : Width} {e : EncUnit} (h : e.nextCode ≤ W.ncodes) (q : SymSeq) :
    (e.learn W q).nextCode = min (e.nextCode + 1) W.ncodes := by
  unfold EncUnit.learn
  split_ifs with hroom
  · exact (Nat.min_eq_left hroom).symm
  · show e.nextCode = _
    omega

/-- Learning overwrites no entry: the one at the counter is free (20_memory.md R43). -/
theorem EncUnit.learn_read_of_read {W : Width} {e : EncUnit} (h : e.dict.Learned W e.nextCode) (q : SymSeq) {c : Nat}
    {r : SymSeq} (hread : e.dict.read c = some r) : (e.learn W q).dict.read c = some r :=
  (e.learn_read_other W q (h.lt_of_read hread).ne).trans hread

/-- ENC_SYM that emits the pending match, which is the source's longest one, and goes on with its symbol
(40_encoder.md R81). -/
theorem EncUnit.Ends.restart {W : Width} {e e' : EncUnit} {s : Symbol} {w : Nat} {q rest : SymSeq} {ds : List Nat}
    (h : e.GoodDict W) (hread : e.dict.read w = some q) (hnew : e.dict.lookup (q ++ [s]) = none)
    (hrest : ({ (e.emit (codeWord w)).learn W (q ++ [s]) with w := some (symCode s) } : EncUnit).Ends W (s :: rest) ds
      e') : e.Ends W (q ++ s :: rest) (w :: ds) e' := by
  have hlearned := h.opened.learned
  have hkept (c : Nat) (r : SymSeq) (hc : e.dict.read c = some r) : e'.dict.read c = some r :=
    hrest.kept c r ((e.emit (codeWord w)).learn_read_of_read hlearned _ hc)
  obtain ⟨qs, hqs, hflat⟩ := hrest.spelled
  exact
    { state := hrest.state
      err := by rw [hrest.err]; simp
      out := by rw [hrest.out]; simp
      good := hrest.good
      counter := by
        have hpos : 1 ≤ ds.length := hrest.length_pos (by simp)
        have hnext := (e.emit (codeWord w)).learn_nextCode hlearned.counter.2 (q ++ [s])
        have hcounter := hrest.counter
        simp only [hnext, EncUnit.emit_nextCode] at hcounter
        simp only [hcounter, List.length_cons]
        omega
      kept := hkept
      spelled := ⟨q :: qs, by simp [hqs, hkept w q hread], by simp [hflat]⟩
      source := fun _ => h.compressFrom_eq hread (by simpa using hnew)
        (compressLearn_eq_learn W q rest s (e.emit (codeWord w))) hrest.source }

/-! ## The run of a stream -/

/-- The symbols to come and ENC_END, from a pending match on, by induction on the symbols: each extends the match or
has it emitted (40_encoder.md R81, R82). -/
theorem runInstrs_encText_of_pending (rest : SymSeq) {s : State} {w : Nat} {q : SymSeq} (hact : s.enc.state = .active)
    (h : s.enc.GoodDict s.param) (hw : s.enc.w = some w) (hread : s.enc.dict.read w = some q) :
    ∃ e ds, runInstrs (encText rest ++ [.encEnd]) s = .next { s with enc := e } ∧
      s.enc.Ends s.param (q ++ rest) ds e := by
  induction rest generalizing s w q with
  | nil => exact ⟨_, [w], runInstrs_cons (exec_encEnd_active hact), .finish_of_some h hw hread⟩
  | cons sym rest ih =>
    cases hfound : s.enc.dict.lookup (q ++ [sym]) with
    | some n =>
      have htake := EncUnit.takeSymbol_extends (W := s.param) hw hread hfound
      obtain ⟨e, ds, hrun, he⟩ := ih (s := { s with enc := { s.enc with w := some n } }) hact (h.takeSymbol htake) rfl
        (Memory.read_of_lookup h.wf hfound)
      rw [List.append_assoc] at he
      exact ⟨e, ds, (runInstrs_cons (exec_encSym_active hact htake)).trans hrun, he.of_w⟩
    | none =>
      have htake := EncUnit.takeSymbol_restarts (W := s.param) hw hread hfound
      have hgood := h.takeSymbol htake
      obtain ⟨e, ds, hrun, he⟩ := ih (s := { s with enc := _ }) (by simpa using hact) hgood rfl
        (hgood.opened.learned.literals sym)
      exact ⟨e, w :: ds, (runInstrs_cons (exec_encSym_active hact htake)).trans hrun, he.restart h hread hfound⟩

/-- A whole stream, from every state (40_encoder.md R80 to R82). -/
theorem runInstrs_encStream_ends (s : State) (text : SymSeq) :
    ∃ e ds, runInstrs (encStream text) s = .next { s with enc := e } ∧ s.enc.init.Ends s.param text ds e := by
  have hinit := EncUnit.GoodDict.init s.param s.enc
  rw [encStream, runInstrs_cons (exec_encInit_next s)]
  cases text with
  | nil => exact ⟨_, [], runInstrs_cons (exec_encEnd_active rfl), .finish_of_none hinit rfl⟩
  | cons sym text =>
    have htake := EncUnit.takeSymbol_first (W := s.param) (e := s.enc.init) sym rfl
    obtain ⟨e, ds, hrun, he⟩ := runInstrs_encText_of_pending text
      (s := { s with enc := { s.enc.init with w := some sym.toNat } }) rfl (hinit.takeSymbol htake) rfl
      (hinit.opened.learned.literals sym)
    exact ⟨e, ds, (runInstrs_cons (exec_encSym_active rfl htake)).trans hrun, he.of_w⟩

/-- The stream's words, INIT's and CLOSE included, written out. -/
theorem EncUnit.Ends.out_init {W : Width} {text : SymSeq} {ds : List Nat} {e e' : EncUnit}
    (h : e.init.Ends W text ds e') :
    e'.out = e.toUnitCore.queueAtInit ++ ds.map codeWord ++ [0x0100#16, 0xF000#16] := by
  rw [h.out, EncUnit.init_core, UnitCore.openStream_eq]
  rfl

/-- A completed run of a stream is the one that ends it. -/
theorem ends_of_runInstrs_encStream {s t : State} {text : SymSeq} (h : runInstrs (encStream text) s = .next t) :
    ∃ ds, s.enc.init.Ends s.param text ds t.enc := by
  obtain ⟨e, ds, hrun, he⟩ := runInstrs_encStream_ends s text
  obtain rfl := Host.Outcome.next.inj (h.symm.trans hrun)
  exact ⟨ds, he⟩

/-! ## The statements on whole streams -/

/-- Settles O46: the source's algorithm on the text gives the stream's data codewords, then the sentinel. -/
theorem encoderRunsTheSourceAlgorithm : Obligations.EncoderRunsTheSourceAlgorithm := by
  unfold Obligations.EncoderRunsTheSourceAlgorithm
  intro s text
  obtain ⟨e, ds, hrun, he⟩ := runInstrs_encStream_ends s text
  have hsource : compress s.param text = ⟨ds ++ [sentinel], e.dict, e.nextCode⟩ := he.source text.length le_rfl
  rw [hsource]
  exact ⟨_, hrun, by simp [he.out, UnitCore.openStream_eq], rfl, rfl, he.state, he.err⟩

/-- Settles O47: a data codeword is the code of an entry, and 256 has none. -/
theorem sentinelIsTheLastCodewordOnly : Obligations.SentinelIsTheLastCodewordOnly := by
  unfold Obligations.SentinelIsTheLastCodewordOnly
  intro s t text hrun
  obtain ⟨ds, he⟩ := ends_of_runInstrs_encStream hrun
  exact ⟨ds, he.out_init, fun _ => he.mem⟩

/-- A memory in canonical form inside the code space has at most as many entries as the space has codes (20_memory.md
R40). -/
theorem Memory.length_le_of_within {m : Memory} {n : Nat} (h : m.wf) (hw : m.within n) : m.length ≤ n := by
  have hnodup : (m.map Prod.fst).Nodup := List.pairwise_map.2 (h.imp Nat.ne_of_lt)
  have hsub : m.map Prod.fst ⊆ List.range n := fun c hc => by
    obtain ⟨cell, hcell, rfl⟩ := List.mem_map.1 hc
    exact List.mem_range.2 (hw cell hcell)
  simpa using (hnodup.subperm hsub).length_le

/-- Settles O48: the words emitted fix how many data codewords there are. -/
theorem encoderGrowth : Obligations.EncoderGrowth := by
  unfold Obligations.EncoderGrowth
  intro s t text ds hrun hout
  obtain ⟨rs, he⟩ := ends_of_runInstrs_encStream hrun
  have hlen : ds.length = rs.length := by simpa using congrArg List.length (hout.symm.trans he.out_init)
  have hcounter : t.enc.nextCode = min (257 + (rs.length - 1)) s.param.ncodes := he.counter
  have hW := s.param.ncodes_range
  exact ⟨by omega, Memory.length_le_of_within he.good.wf he.good.within⟩

/-- Settles O49: each data codeword's entry is one to MAX_SEQ symbols long, so there are at most as many as symbols. -/
theorem dataCodewordsSpellTheInput : Obligations.DataCodewordsSpellTheInput := by
  unfold Obligations.DataCodewordsSpellTheInput
  intro s t text hrun
  obtain ⟨ds, he⟩ := ends_of_runInstrs_encStream hrun
  obtain ⟨qs, hqs, hflat⟩ := he.spelled
  refine ⟨ds, qs, he.out_init, hqs, hflat, fun q hq => ?_, ?_, fun h => ⟨he.length_pos h, he.length_le⟩⟩
  · exact he.length_bounds hqs hq
  · rintro rfl
    exact List.eq_nil_of_length_eq_zero (Nat.le_zero.1 he.length_le)

end Sys2Proof.Machine
end

section
/-! The decoder's commands, one at a time (41_decoder.md R88 to R90, R93): the next state each gives, and what DEC_CODE
and DEC_EOS leave unchanged. -/

namespace Sys2Proof.Machine

/-! ## DEC_INIT -/

/-- DEC_INIT's effect, as one record (41_decoder.md R88). -/
theorem DecUnit.init_eq (d : DecUnit) :
    d.init = { state := .active, err := .ok, out := d.toUnitCore.queueAtInit, table := freshTable, highestCode := 257,
               current := none } := by
  rw [DecUnit.init, UnitCore.openStream_eq]

/-- Settles O25: DEC_INIT is its effect in every state, and a fresh table holds the literals, the empty sequence at 256
and nothing else. -/
theorem decInitStartsStream : Obligations.DecInitStartsStream := by
  unfold Obligations.DecInitStartsStream
  intro s
  exact ⟨_, exec_decInit_next s, by rw [DecUnit.init_eq], (freshTable_learned s.param).literals, freshTable_sentinel,
    fun _ hc => freshTable_none hc, statusWord_begun s.param⟩

/-! ## DEC_CODE -/

/-- Settles O26: in ACTIVE DEC_CODE is its effect, which tests for the sentinel first. -/
theorem decCodeSentinelEndsStream : Obligations.DecCodeSentinelEndsStream := by
  unfold Obligations.DecCodeSentinelEndsStream
  exact fun s hact => exec_decCode_active hact (DecUnit.takeCode_sentinel s.param s.dec)

/-- Settles O27: in ACTIVE DEC_CODE is its effect, which reads a literal. -/
theorem decCodeFirstCodeword : Obligations.DecCodeFirstCodeword := by
  unfold Obligations.DecCodeFirstCodeword
  exact fun s code q hact hcur hlit hread => exec_decCode_active hact (DecUnit.takeCode_first hcur hlit hread)

/-- What accepting a sequence gives, with the table by its reads: one entry is learned while there is room
(41_decoder.md R89). -/
theorem DecUnit.accept_reads (W : Width) (cur : SymSeq) (x : Symbol) (q : SymSeq) (d : DecUnit) :
    ∃ m : Memory, d.accept W cur (x :: q) = .ok { d with
        out := d.out ++ (x :: q).map symWord, table := m,
        highestCode := if d.highestCode < W.ncodes then d.highestCode + 1 else d.highestCode,
        current := some (x :: q) } ∧
      (d.highestCode < W.ncodes → m.read d.highestCode = some (cur ++ [x])) ∧
      (∀ c, (c ≠ d.highestCode ∨ W.ncodes ≤ d.highestCode) → m.read c = d.table.read c) := by
  rw [DecUnit.accept_cons]
  by_cases hroom : d.highestCode < W.ncodes
  · rw [if_pos hroom, if_pos hroom]
    exact ⟨_, rfl, fun _ => d.table.read_write_same _ _,
      fun c hc => d.table.read_write_other _ (hc.resolve_right (Nat.not_le.2 hroom))⟩
  · rw [if_neg hroom, if_neg hroom]
    exact ⟨d.table, rfl, fun h => absurd h hroom, fun _ _ => rfl⟩

/-- Settles O28: a KNOWN codeword's entry is accepted. -/
theorem decCodeKnownCodeword : Obligations.DecCodeKnownCodeword := by
  unfold Obligations.DecCodeKnownCodeword
  intro s code cur q x hact hcur _ hsentinel hspace hknown hread
  have htake := DecUnit.takeCode_known hcur hsentinel hspace hknown hread
  obtain ⟨m, haccept, hlearned, hothers⟩ := s.dec.accept_reads s.param cur x q
  exact ⟨_, exec_decCode_active hact (htake.trans haccept), rfl, hlearned, hothers⟩

/-- Settles O29: the sequence accepted is the entry learned, and a codeword of the code space that equals `highestCode`
leaves room for it. -/
theorem decCodeSelfCodeword : Obligations.DecCodeSelfCodeword := by
  unfold Obligations.DecCodeSelfCodeword
  intro s code cur x hact hcur _ hsentinel hspace hself
  have htake := DecUnit.takeCode_self hcur hsentinel hspace hself
  have hroom : s.dec.highestCode < s.param.ncodes := hself ▸ hspace
  obtain ⟨m, haccept, hlearned, hothers⟩ := s.dec.accept_reads s.param (x :: cur) x (cur ++ [x])
  rw [if_pos hroom] at haccept
  exact ⟨_, exec_decCode_active hact (htake.trans haccept), rfl, hlearned hroom, fun c hc => hothers c (.inl hc)⟩

/-- A completed DEC_CODE in ACTIVE is its effect (60_exceptions.md R104). -/
theorem exec_decCode_of_active {s t : State} {code : BitVec 12} (hact : s.dec.state = .active)
    (h : exec (.decCode code) s = .next t) :
    ∃ d, s.dec.takeCode code.toNat s.param = .ok d ∧ t = { s with dec := d } := by
  rw [exec_decCode] at h
  obtain ⟨d, hd, rfl⟩ := State.onDec_next.1 h
  exact ⟨d, (DecUnit.dispatch_active hact).symm.trans hd, rfl⟩

/-- An error raised with a stream open emits its CLOSE word alone (60_exceptions.md R105). -/
theorem DecUnit.streamError_out_of_active {d : DecUnit} (hact : d.state = .active) (code : Status) :
    (d.streamError code).out = d.out ++ [closeWord code] := by simp [hact]

/-- Settles O32: of what DEC_CODE can do in ACTIVE, only the three corrupt codewords lead to ERROR. -/
theorem decErrorEmitsOnlyItsCloseWord : Obligations.DecErrorEmitsOnlyItsCloseWord := by
  unfold Obligations.DecErrorEmitsOnlyItsCloseWord
  intro s t code hact h herror
  obtain ⟨d, htake, rfl⟩ := exec_decCode_of_active hact h
  have hopen : s.dec.state ≠ .error := by simp [hact]
  rcases DecUnit.takeCode_ok htake with ⟨-, rfl⟩ | ⟨-, -, rfl⟩ | ⟨-, -, -, -, rfl⟩ | ⟨-, -, _, -, rfl⟩ |
    ⟨_, _, _, _, -, -, -, -, -, ⟨-, rfl⟩ | ⟨-, rfl⟩⟩ | ⟨_, -, -, -, -, rfl⟩
  · cases herror
  · exact ⟨DecUnit.streamError_out_of_active hact _, rfl, rfl, .inl rfl⟩
  · exact ⟨DecUnit.streamError_out_of_active hact _, rfl, rfl, .inr (.inl rfl)⟩
  · exact absurd herror hopen
  · exact absurd herror hopen
  · exact absurd herror hopen
  · exact ⟨DecUnit.streamError_out_of_active hact _, rfl, rfl, .inr (.inr rfl)⟩

/-! ## What DEC_CODE and DEC_EOS leave unchanged -/

/-- What a command other than INIT leaves of the table, the counter and the status code (20_memory.md R46;
41_decoder.md R89, R90). -/
structure DecUnit.Frame (W : Width) (d d' : DecUnit) : Prop where
  counter : d'.highestCode = d.highestCode ∨ (d.highestCode < W.ncodes ∧ d'.highestCode = d.highestCode + 1)
  table : d'.highestCode = d.highestCode → d'.table = d.table
  reads : ∀ c, c ≠ d.highestCode → d'.table.read c = d.table.read c
  err : d'.state ≠ .error → d'.err = d.err

/-- A record with the table, the counter and, outside ERROR, the status code as they were. -/
structure DecUnit.Kept (d d' : DecUnit) : Prop where
  table : d'.table = d.table
  highestCode : d'.highestCode = d.highestCode
  err : d'.state ≠ .error → d'.err = d.err

theorem DecUnit.Frame.of_kept {W : Width} {d d' : DecUnit} (h : d.Kept d') : d.Frame W d' where
  counter := .inl h.highestCode
  table _ := h.table
  reads _ _ := by rw [h.table]
  err := h.err

/-- The error action writes a status code, and leaves the unit in ERROR (60_exceptions.md R105). -/
theorem DecUnit.Kept.streamError (d : DecUnit) (code : Status) : d.Kept (d.streamError code) :=
  ⟨rfl, rfl, fun h => absurd rfl h⟩

/-- DEC_CODE in ACTIVE writes at most the entry at the counter (41_decoder.md R89). -/
theorem DecUnit.Frame.takeCode {W : Width} {d d' : DecUnit} {c : Nat} (h : d.takeCode c W = .ok d') :
    d.Frame W d' := by
  rcases DecUnit.takeCode_ok h with ⟨-, rfl⟩ | ⟨-, -, rfl⟩ | ⟨-, -, -, -, rfl⟩ | ⟨-, -, _, -, rfl⟩ |
    ⟨_, _, _, _, -, -, -, -, -, ⟨hroom, rfl⟩ | ⟨-, rfl⟩⟩ | ⟨_, -, -, -, -, rfl⟩
  · exact .of_kept ⟨rfl, rfl, fun _ => rfl⟩
  · exact .of_kept (.streamError d _)
  · exact .of_kept (.streamError d _)
  · exact .of_kept ⟨rfl, rfl, fun _ => rfl⟩
  · exact
      { counter := .inr ⟨hroom, rfl⟩
        table := fun hsame => absurd hsame (Nat.succ_ne_self _)
        reads := fun _ hc => d.table.read_write_other _ hc
        err := fun _ => rfl }
  · exact .of_kept ⟨rfl, rfl, fun _ => rfl⟩
  · exact .of_kept (.streamError d _)

/-- What a kept record satisfies, and the effect in ACTIVE gives, a dispatched command gives: outside ACTIVE the unit
ignores it or raises an error (60_exceptions.md R104). -/
theorem DecUnit.dispatch_of_kept {P : DecUnit → Prop} {f : DecUnit → Except Fault DecUnit} {d d' : DecUnit}
    (hkept : ∀ a, d.Kept a → P a) (hf : f d = .ok d' → P d') (h : d.dispatch f = .ok d') : P d' := by
  rcases d.dispatch_cases f with ⟨-, hd⟩ | ⟨-, hd⟩ | ⟨-, hd⟩ <;> rw [hd] at h
  · cases h
    exact hkept d ⟨rfl, rfl, fun _ => rfl⟩
  · cases h
    exact hkept _ (.streamError d _)
  · exact hf h

theorem exec_decCode_frame {s t : State} {code : BitVec 12} (h : exec (.decCode code) s = .next t) :
    s.dec.Frame s.param t.dec := by
  rw [exec_decCode] at h
  obtain ⟨d, hd, rfl⟩ := State.onDec_next.1 h
  exact DecUnit.dispatch_of_kept (fun _ => .of_kept) .takeCode hd

theorem exec_decEos_kept {s t : State} (h : exec .decEos s = .next t) : s.dec.Kept t.dec := by
  rw [exec_decEos] at h
  obtain ⟨d, hd, rfl⟩ := State.onDec_next.1 h
  refine DecUnit.dispatch_of_kept (fun _ => id) (fun heos => ?_) hd
  cases heos
  exact .streamError s.dec _

/-- What DEC_CODE and DEC_EOS leave of the decoder. -/
theorem exec_dec_frame {i : Instr} {s t : State} (hunit : i.unit = .dec) (hinit : i.isInit = false)
    (h : exec i s = .next t) : s.dec.Frame s.param t.dec := by
  cases i with
  | decCode code => exact exec_decCode_frame h
  | decEos => exact .of_kept (exec_decEos_kept h)
  | decInit => cases hinit
  | encInit | encSym | encEnd => cases hunit

/-- A command of the decoder changes DEC only (20_memory.md R56). -/
theorem exec_dec_others {i : Instr} {s t : State} (hunit : i.unit = .dec) (h : exec i s = .next t) :
    t.param = s.param ∧ t.host = s.host ∧ t.enc = s.enc := by
  obtain ⟨g, hg⟩ := exec_eq_onDec hunit
  rw [hg] at h
  obtain ⟨d, -, rfl⟩ := State.onDec_next.1 h
  exact ⟨rfl, rfl, rfl⟩

/-- Settles O33: both are operations of DEC that append to its queue, and each keeps its frame. -/
theorem decoderFrame : Obligations.DecoderFrame := by
  unfold Obligations.DecoderFrame
  intro i s t hunit hinit h
  obtain ⟨hparam, hhost, henc⟩ := exec_dec_others hunit h
  obtain ⟨hcounter, htable, hreads, herr⟩ := exec_dec_frame hunit hinit h
  have hout := exec_out_prefix h
  rw [hunit] at hout
  refine ⟨hparam, hhost, henc, hout, hcounter, htable, hreads, ?_, herr⟩
  rintro rfl
  exact ⟨(exec_decEos_kept h).table, (exec_decEos_kept h).highestCode⟩

end Sys2Proof.Machine
end

section
/-! Whole streams in the decoder (41_decoder.md R91, R92, R94). A DEC_CODE after which the stream is still open emits
the sequence it makes current; fed the encoder's data codewords that is the codeword's entry of the encoder's
dictionary, and these entries spell the input. -/

namespace Sys2Proof.Machine

/-! ## A DEC_CODE that keeps the stream open -/

/-- What DEC_CODE does when the stream is open before and after it (41_decoder.md R89): a sequence is emitted and made
current, and after the first codeword the counter moves up to `2^W`. -/
structure DecUnit.Decodes (W : Width) (d d' : DecUnit) : Prop where
  emitted : ∃ q, d'.current = some q ∧ d'.out = d.out ++ q.map symWord
  first : d.current = none → d'.highestCode = d.highestCode
  later : d.current ≠ none → d.highestCode ≤ W.ncodes → d'.highestCode = min (d.highestCode + 1) W.ncodes

theorem DecUnit.Decodes.takeCode {W : Width} {d d' : DecUnit} {c : Nat} (h : d.takeCode c W = .ok d')
    (hact : d'.state = .active) : d.Decodes W d' := by
  rcases DecUnit.takeCode_ok h with ⟨-, rfl⟩ | ⟨-, -, rfl⟩ | ⟨-, -, -, -, rfl⟩ | ⟨-, hcur, q, -, rfl⟩ |
    ⟨_, next, _, _, -, -, hcur, -, -, ⟨hroom, rfl⟩ | ⟨hfull, rfl⟩⟩ | ⟨_, -, -, -, -, rfl⟩
  · cases hact
  · cases hact
  · cases hact
  · exact ⟨⟨q, rfl, rfl⟩, fun _ => rfl, fun h => absurd hcur h⟩
  · exact ⟨⟨next, rfl, rfl⟩, fun h => (by cases hcur.symm.trans h), fun _ _ => (Nat.min_eq_left hroom).symm⟩
  · refine ⟨⟨next, rfl, rfl⟩, fun h => (by cases hcur.symm.trans h), fun _ hle => ?_⟩
    show d.highestCode = _
    omega
  · cases hact

/-- A DEC_CODE after which DEC is in ACTIVE found it there (60_exceptions.md R104). -/
theorem exec_decCode_active_before {s t : State} {code : BitVec 12} (h : exec (.decCode code) s = .next t)
    (hact : t.dec.state = .active) : s.dec.state = .active := by
  rw [exec_decCode] at h
  obtain ⟨d, hd, rfl⟩ := State.onDec_next.1 h
  rcases s.dec.dispatch_cases (DecUnit.takeCode code.toNat s.param) with ⟨-, hd'⟩ | ⟨-, hd'⟩ | ⟨hbefore, -⟩
  · cases hd'.symm.trans hd
    exact hact
  · cases hd'.symm.trans hd
    cases hact
  · exact hbefore

theorem exec_decCode_decodes {s t : State} {code : BitVec 12} (h : exec (.decCode code) s = .next t)
    (hact : t.dec.state = .active) : s.dec.Decodes s.param t.dec := by
  obtain ⟨d, htake, rfl⟩ := exec_decCode_of_active (exec_decCode_active_before h hact) h
  exact .takeCode htake hact

/-! ## How many entries a stream learns -/

theorem runInstrs_decCode_active_before {codes : List (BitVec 12)} {s t : State}
    (hrun : runInstrs (codes.map .decCode) s = .next t) (hact : t.dec.state = .active) : s.dec.state = .active := by
  induction codes generalizing s with
  | nil => exact Host.Outcome.next.inj hrun ▸ hact
  | cons code codes ih =>
    obtain ⟨u, hexec, hrest⟩ := runInstrs_cons_next.1 hrun
    exact exec_decCode_active_before hexec (ih hrest)

/-- After a stream's first codeword each one moves the counter up to `2^W` (41_decoder.md R94). -/
theorem highestCode_of_runInstrs_decCode {codes : List (BitVec 12)} {s t : State} (hstarted : s.dec.current ≠ none)
    (hle : s.dec.highestCode ≤ s.param.ncodes) (hrun : runInstrs (codes.map .decCode) s = .next t)
    (hact : t.dec.state = .active) :
    t.dec.highestCode = min (s.dec.highestCode + codes.length) s.param.ncodes := by
  induction codes generalizing s with
  | nil =>
    obtain rfl := Host.Outcome.next.inj hrun
    exact (Nat.min_eq_left hle).symm
  | cons code codes ih =>
    obtain ⟨u, hexec, hrest⟩ := runInstrs_cons_next.1 hrun
    obtain ⟨⟨q, hcur, -⟩, -, hlater⟩ := exec_decCode_decodes hexec (runInstrs_decCode_active_before hrest hact)
    have hcounter := hlater hstarted hle
    have hparam := exec_param hexec
    rw [ih (by simp [hcur]) (by rw [hparam]; omega) hrest, hparam, List.length_cons]
    omega

/-- Settles O52: the first codeword leaves the counter at 257, and each later one moves it up to `2^W`. -/
theorem decoderGrowth : Obligations.DecoderGrowth := by
  unfold Obligations.DecoderGrowth
  intro s t codes _ hrun hact
  have hW := s.param.ncodes_range
  rw [runInstrs_cons (exec_decInit_next s)] at hrun
  cases codes with
  | nil =>
    obtain rfl := Host.Outcome.next.inj hrun
    simp
  | cons code codes =>
    obtain ⟨u, hexec, hrest⟩ := runInstrs_cons_next.1 hrun
    obtain ⟨⟨q, hcur, -⟩, hfirst, -⟩ := exec_decCode_decodes hexec (runInstrs_decCode_active_before hrest hact)
    have hcounter : u.dec.highestCode = 257 := hfirst rfl
    have hparam : u.param = s.param := (exec_param hexec).trans rfl
    rw [highestCode_of_runInstrs_decCode (by simp [hcur]) (by rw [hparam]; omega) hrest hact, hparam, hcounter,
      List.length_cons]
    omega

/-! ## The decoder on spelled codewords -/

/-- A decoder that has decoded the data codewords `ds`, the last one first, of a stream that the dictionary `F` spells:
it has emitted their entries after `o`, and learned from `F` (41_decoder.md R91; 10_state.md R27). -/
structure DecUnit.Expands (W : Width) (F : Memory) (o : List OutWord) (ds : List Nat) (d : DecUnit) : Prop where
  active : d.state = .active
  err : d.err = .ok
  emitted : ∃ qs : List SymSeq, ds.reverse.map F.read = qs.map some ∧ d.out = o ++ qs.flatten.map symWord
  counter : d.highestCode = min (257 + (ds.length - 1)) W.ncodes
  agrees : ∀ c, 257 ≤ c → c < d.highestCode → d.table.read c = F.read c
  free : ∀ c, d.highestCode ≤ c → d.table.read c = none

theorem DecUnit.Expands.init (W : Width) (F : Memory) (d : DecUnit) :
    d.init.Expands W F d.toUnitCore.queueAtInit [] where
  active := rfl
  err := rfl
  emitted := ⟨[], rfl, by simp [UnitCore.queueAtInit]⟩
  counter := by
    have := W.ncodes_range
    rw [DecUnit.init_highestCode, List.length_nil]
    omega
  agrees c hc hlt := absurd hlt (Nat.not_lt.2 hc)
  free _ hc := freshTable_none hc

/-- The entries from the counter on stay free (10_state.md R26 (4)). -/
theorem DecUnit.Frame.free {W : Width} {d d' : DecUnit} (h : d.Frame W d')
    (hfree : ∀ c, d.highestCode ≤ c → d.table.read c = none) (c : Nat) (hc : d'.highestCode ≤ c) :
    d'.table.read c = none := by
  rcases h.counter with hsame | ⟨-, hnext⟩
  · rw [h.table hsame, hfree c (by omega)]
  · rw [h.reads c (by omega), hfree c (by omega)]

/-- A DEC_CODE after which the decoder follows the dictionary on has emitted the codeword's entry. -/
theorem DecUnit.Expands.next {W : Width} {F : Memory} {o : List OutWord} {ds : List Nat} {c : Nat} {d d' : DecUnit}
    (h : d.Expands W F o ds) (hframe : d.Frame W d') (hdecodes : d.Decodes W d') (hd : d'.Following W F ds.length c) :
    d'.Expands W F o (c :: ds) := by
  obtain ⟨qs, hqs, hout⟩ := h.emitted
  obtain ⟨q, hcur, hout'⟩ := hdecodes.emitted
  have hread : F.read c = some q := hd.current.symm.trans hcur
  exact
    { active := hd.active
      err := (hframe.err (by simp [hd.active])).trans h.err
      emitted := ⟨qs ++ [q], by simp [hqs, hread], by simp [hout', hout]⟩
      counter := hd.counter
      agrees := fun a ha hlt => hd.agrees a (by omega) hlt
      free := hframe.free h.free }

/-- The decoder expands the codewords that a dictionary spells, by induction on them from the last one back. -/
theorem runInstrs_decCodes_expands (t : State) {F : Memory} {next : Nat} (hF : F.Learned t.param next) (ds : List Nat)
    (h : F.Spells t.param ds) :
    ∃ d, runInstrs (.decInit :: decCodes ds.reverse) t = .next { t with dec := d } ∧
      d.Expands t.param F t.dec.toUnitCore.queueAtInit ds := by
  induction ds with
  | nil => exact ⟨_, rfl, .init t.param F t.dec⟩
  | cons c ds ih =>
    obtain ⟨d, hrun, hd⟩ := ih (h.drop 1)
    obtain ⟨d', hrun', hd'⟩ := runInstrs_decCodes_following t hF ds h
    have hlast : runInstrs [.decCode (BitVec.ofNat 12 c)] { t with dec := d } = .next { t with dec := d' } := by
      rw [← hrun', ← runInstrs_append hrun]
      simp [decCodes]
    obtain ⟨u, hexec, hu⟩ := runInstrs_cons_next.1 hlast
    obtain rfl := Host.Outcome.next.inj hu
    exact ⟨d', hrun', hd.next (exec_decCode_frame hexec) (exec_decCode_decodes hexec hd'.active) hd'⟩

/-- The sentinel ends the stream, and DEC_EOS after it is ignored (41_decoder.md R89, R90). -/
theorem runInstrs_decStream {t : State} {ds : List Nat} {d : DecUnit}
    (hrun : runInstrs (.decInit :: decCodes ds) t = .next { t with dec := d }) (hact : d.state = .active) :
    runInstrs (decStream (ds ++ [sentinel])) t = .next { t with dec := d.finish } := by
  have hsplit : decStream (ds ++ [sentinel]) = (.decInit :: decCodes ds) ++ [.decCode 256#12, .decEos] := by
    simp [decStream, decCodes]
  rw [hsplit, runInstrs_append hrun,
    runInstrs_cons (exec_decCode_active (s := { t with dec := d }) (code := 256#12) hact (d.takeCode_sentinel t.param))]
  rfl

/-! ## The two ends -/

theorem dataCodes_append (ws vs : List OutWord) : dataCodes (ws ++ vs) = dataCodes ws ++ dataCodes vs := by
  simp [dataCodes]

/-- The payloads of DATA words are the codewords they carry (30_encoding.md R71, R73). -/
theorem dataCodes_map_codeWord {W : Width} {ds : List Nat} (h : ∀ c ∈ ds, c < W.ncodes) :
    dataCodes (ds.map codeWord) = ds := by
  have hall : (ds.map codeWord).filter isData = ds.map codeWord := by
    rw [List.filter_eq_self]
    simp [isData_iff]
  rw [dataCodes, hall, List.map_map]
  exact (List.map_congr_left fun c hc => outPayload_codeWord_toNat (h c hc)).trans (List.map_id ds)

/-- Every code space holds the codes below 512 (00_scope.md R8). -/
theorem lt_ncodes_of_lt_512 (W : Width) {c : Nat} (h : c < 512) : c < W.ncodes := h.trans_le W.ncodes_range.1

/-- The data codewords of a stream and its sentinel are in the code space. -/
theorem lt_ncodes_of_mem_stream {W : Width} {ds : List Nat} (h : ∀ c ∈ ds, c < W.ncodes) :
    ∀ c ∈ ds ++ [sentinel], c < W.ncodes :=
  List.forall_mem_append.2 ⟨h, List.forall_mem_singleton.2 (lt_ncodes_of_lt_512 W (by decide))⟩

/-- The codewords the packer takes from a stream's words: the data codewords and the sentinel (30_encoding.md R73). -/
theorem dataCodes_stream {W : Width} {ds : List Nat} (h : ∀ c ∈ ds, c < W.ncodes) :
    dataCodes (ds.map codeWord ++ [codeWord sentinel, closeWord .ok]) = ds ++ [sentinel] := by
  have hclose : dataCodes [closeWord .ok] = [] := by decide
  have hdata := dataCodes_map_codeWord (lt_ncodes_of_mem_stream h)
  rw [List.map_append] at hdata
  rw [List.append_cons, dataCodes_append, hclose, List.append_nil]
  exact hdata

/-- Spelled codewords are in the code space. -/
theorem Memory.Spells.lt_ncodes {W : Width} {F : Memory} :
    ∀ {ds : List Nat}, F.Spells W ds → ∀ c ∈ ds, c < W.ncodes
  | [], _ => nofun
  | [_], hlit => List.forall_mem_singleton.2 (lt_ncodes_of_lt_512 W (lt_trans hlit (by decide)))
  | _ :: _ :: _, ⟨hnext, h⟩ => List.forall_mem_cons.2 ⟨hnext.inSpace, h.lt_ncodes⟩

/-- The data codewords of a whole stream: the source's, which cut up the text, are those the final dictionary
spells. -/
theorem runInstrs_encStream_ends_spells (s : State) (text : SymSeq) :
    ∃ e ds, runInstrs (encStream text) s = .next { s with enc := e } ∧ s.enc.init.Ends s.param text ds e ∧
      e.dict.Spells s.param ds.reverse := by
  obtain ⟨e, ds, hrun, he⟩ := runInstrs_encStream_ends s text
  obtain ⟨e', rs, hrun', hout, -, hspells⟩ := runInstrs_encStream s text
  obtain rfl : e = e' := congrArg State.enc (Host.Outcome.next.inj (hrun.symm.trans hrun'))
  have hwords : ds.map codeWord = rs.reverse.map codeWord :=
    List.append_cancel_left (List.append_cancel_right (he.out_init.symm.trans hout))
  have hds : ds = rs.reverse := by
    rw [← dataCodes_map_codeWord fun c hc => (he.mem hc).1, hwords, dataCodes_map_codeWord (W := s.param)]
    exact fun c hc => hspells.lt_ncodes c (List.mem_reverse.1 hc)
  exact ⟨e, ds, hrun, he, by rwa [hds, List.reverse_reverse]⟩

/-- Both ends of a stream: the encoder's words, and what the decoder does on the codewords they carry (41_decoder.md
R91; 10_state.md R27). -/
theorem runInstrs_roundTrip (s : State) (text : SymSeq) :
    ∃ e ds d, runInstrs (encStream text) s = .next { s with enc := e } ∧
      e.out = s.enc.toUnitCore.queueAtInit ++ (ds.map codeWord ++ [codeWord sentinel, closeWord .ok]) ∧
      (∀ c ∈ ds, c < s.param.ncodes) ∧
      runInstrs (decStream (ds ++ [sentinel])) { s with enc := e } = .next { s with enc := e, dec := d } ∧
      d.out = s.dec.toUnitCore.queueAtInit ++ (text.map symWord ++ [closeWord .ok]) ∧
      d.state = .done ∧ d.err = .ok ∧ d.highestCode = e.nextCode ∧ ∀ c, 257 ≤ c → d.table.read c = e.dict.read c := by
  obtain ⟨e, ds, hrun, he, hspells⟩ := runInstrs_encStream_ends_spells s text
  obtain ⟨d, hdec, hd⟩ := runInstrs_decCodes_expands { s with enc := e } he.good.opened.learned ds.reverse hspells
  rw [List.reverse_reverse] at hdec
  obtain ⟨qs, hqs, hout⟩ := hd.emitted
  obtain ⟨qs', hqs', rfl⟩ := he.spelled
  obtain rfl : qs = qs' := by
    rw [List.reverse_reverse, hqs'] at hqs
    exact List.map_injective_iff.2 (Option.some_injective _) hqs.symm
  have hcounter : d.highestCode = e.nextCode := by
    rw [hd.counter, he.counter, List.length_reverse, EncUnit.init_nextCode]
  refine ⟨e, ds, d.finish, hrun, ?_, fun c hc => (he.mem hc).1, runInstrs_decStream hdec hd.active, ?_, rfl, hd.err,
    hcounter, fun c hc => ?_⟩
  · rw [he.out_init, List.append_assoc]
    rfl
  · rw [DecUnit.finish_eq, hout, List.append_assoc]
  · show d.table.read c = _
    rcases Nat.lt_or_ge c d.highestCode with hlt | hge
    · exact hd.agrees c hc hlt
    · rw [hd.free c hge, he.good.opened.learned.free c (hcounter ▸ hge)]

/-- Settles O50: the words of the encoder's stream carry its data codewords and the sentinel. -/
theorem roundTrip : Obligations.RoundTrip := by
  unfold Obligations.RoundTrip
  intro s text
  obtain ⟨e, ds, d, hrun, hout, hspace, hdec, hdout, hstate, herr, hcounter, htable⟩ := runInstrs_roundTrip s text
  refine ⟨_, _, { s with enc := e, dec := d }, hrun, hout, (dataCodes_stream hspace).symm ▸ hdec, ?_, hstate, herr,
    hcounter, htable⟩
  rw [hdout, List.append_assoc]
  rfl

/-! ## Over the wire -/

/-- The commands the reader delivers are those of `DEC_STREAM` on the codewords packed (30_encoding.md R76). -/
theorem deliver_packOutput {W : Width} {ws : List OutWord} (h : ∀ c ∈ dataCodes ws, c < W.ncodes) :
    .decInit :: deliver W (packOutput W ws) = decStream (dataCodes ws) := by
  rw [deliver, packOutput, unpackOfPack W _ h]
  rfl

/-- The symbols written are those of the SYMWORDs, CLOSE excluded (30_encoding.md R72; 60_exceptions.md R115). -/
theorem writtenSymbols_stream (text : SymSeq) (st : Status) :
    writtenSymbols (text.map symWord ++ [closeWord st]) = text := by
  have hdata : (text.map symWord).filter isData = text.map symWord := by
    rw [List.filter_eq_self]
    simp [isData_iff]
  have hclose : isData (closeWord st) = false := by simp [isData, tagData, tagClose]
  rw [writtenSymbols, List.filter_append, hdata, List.filter_singleton, hclose]
  simp [Function.comp_def, symWord_symbol]

/-- Settles O56: the reader delivers the codewords packed, and the decoder's words carry the input. -/
theorem wireRoundTrip : Obligations.WireRoundTrip := by
  unfold Obligations.WireRoundTrip
  intro s text
  obtain ⟨e, ds, d, hrun, hout, hspace, hdec, hdout, hstate, herr, -, -⟩ := runInstrs_roundTrip s text
  have hcodes := dataCodes_stream hspace
  refine ⟨_, _, { s with enc := e, dec := d }, _, hrun, hout, ?_, hdout, writtenSymbols_stream text .ok, hstate,
    herr⟩
  rw [deliver_packOutput, hcodes]
  · exact hdec
  · rw [hcodes]
    exact lt_ncodes_of_mem_stream hspace

/-! ## Three equal symbols at the start -/

/-- A dictionary has no sequence longer than its counter allows (10_state.md R25 (4)). -/
theorem EncUnit.GoodDict.lookup_eq_none_of_long {W : Width} {e : EncUnit} (h : e.GoodDict W) {q : SymSeq}
    (hlong : e.nextCode - 255 ≤ q.length) : e.dict.lookup q = none := by
  refine (Memory.lookup_eq_none_iff h.wf q).2 fun c hread => ?_
  have hlen := (h.opened.learned.length_bounds hread (h.opened.ne_sentinel hread)).2
  omega

/-- A pending match that no symbol extends is the next codeword (40_encoder.md R81, R82). -/
theorem runInstrs_encText_of_maximal (rest : SymSeq) {s : State} {w : Nat} {q : SymSeq} (hact : s.enc.state = .active)
    (h : s.enc.GoodDict s.param) (hw : s.enc.w = some w) (hread : s.enc.dict.read w = some q)
    (hmax : ∀ x, s.enc.dict.lookup (q ++ [x]) = none) :
    ∃ e ds, runInstrs (encText rest ++ [.encEnd]) s = .next { s with enc := e } ∧
      s.enc.Ends s.param (q ++ rest) (w :: ds) e := by
  cases rest with
  | nil => exact ⟨_, [], runInstrs_cons (exec_encEnd_active hact), .finish_of_some h hw hread⟩
  | cons sym rest =>
    have htake := EncUnit.takeSymbol_restarts (W := s.param) hw hread (hmax sym)
    have hgood := h.takeSymbol htake
    obtain ⟨e, ds, hrun, he⟩ := runInstrs_encText_of_pending rest (s := { s with enc := _ }) (by simpa using hact)
      hgood rfl (hgood.opened.learned.literals sym)
    exact ⟨e, ds, (runInstrs_cons (exec_encSym_active hact htake)).trans hrun, he.restart h hread (hmax sym)⟩

/-- One symbol pending with nothing learned yet, and the symbol twice more: it is emitted, the pair is learned at the
counter and becomes the pending match, and no symbol extends that one (40_encoder.md R81; 41_decoder.md R92). -/
theorem runInstrs_encText_pair {s : State} {a : Symbol} (text : SymSeq) (hact : s.enc.state = .active)
    (h : s.enc.GoodDict s.param) (hw : s.enc.w = some a.toNat) (hnext : s.enc.nextCode = 257) :
    ∃ e ws, runInstrs (encText (a :: a :: text) ++ [.encEnd]) s = .next { s with enc := e } ∧
      e.out = s.enc.out ++ codeWord a.toNat :: codeWord 257 :: ws := by
  have hroom : s.enc.nextCode < s.param.ncodes := hnext ▸ lt_ncodes_of_lt_512 s.param (by decide)
  have hsecond := EncUnit.takeSymbol_restarts (W := s.param) hw (h.opened.learned.literals a)
    (h.lookup_eq_none_of_long (q := [a] ++ [a]) (by simp [hnext]))
  rw [EncUnit.restart_eq, if_pos hroom] at hsecond
  have hgood := h.takeSymbol hsecond
  have hpair := s.enc.dict.read_write_same s.enc.nextCode ([a] ++ [a])
  have hthird := EncUnit.takeSymbol_extends (W := s.param) rfl (hgood.opened.learned.literals a)
    (hgood.lookup_eq hpair)
  have hgood' := hgood.takeSymbol hthird
  obtain ⟨e, ds, hrun, he⟩ := runInstrs_encText_of_maximal text (s := { s with enc := _ }) (by exact hact) hgood' rfl
    hpair fun x => hgood'.lookup_eq_none_of_long (by simp [hnext])
  refine ⟨e, ds.map codeWord ++ [codeWord sentinel, closeWord .ok], ?_, by rw [he.out]; simp [hnext]⟩
  exact (runInstrs_cons (exec_encSym_active hact hsecond)).trans
    ((runInstrs_cons (exec_encSym_active (by exact hact) hthird)).trans hrun)

/-- A stream of three equal symbols and any others emits the first symbol's code, then 257 (41_decoder.md R92). -/
theorem runInstrs_encStream_triple (s : State) (a : Symbol) (text : SymSeq) :
    ∃ e ws, runInstrs (encStream (a :: a :: a :: text)) s = .next { s with enc := e } ∧
      e.out = s.enc.toUnitCore.queueAtInit ++ codeWord a.toNat :: codeWord 257 :: ws := by
  have hfirst := EncUnit.takeSymbol_first (W := s.param) (e := s.enc.init) a rfl
  obtain ⟨e, ws, hrun, hout⟩ := runInstrs_encText_pair text (a := a)
    (s := { s with enc := { s.enc.init with w := some a.toNat } }) rfl
    ((EncUnit.GoodDict.init s.param s.enc).takeSymbol hfirst) rfl rfl
  refine ⟨e, ws, ?_, by rw [hout, EncUnit.init_eq]⟩
  rw [encStream, runInstrs_cons (exec_encInit_next s)]
  exact (runInstrs_cons (exec_encSym_active rfl hfirst)).trans hrun

/-- The decoder after the code of one symbol: the table is still the fresh one (41_decoder.md R89). -/
theorem runInstrs_decCodes_literal (t : State) (a : Symbol) :
    ∃ d, runInstrs (.decInit :: decCodes [a.toNat]) t = .next { t with dec := d } ∧ d.state = .active ∧
      d.current = some [a] ∧ d.table = freshTable ∧ d.highestCode = 257 := by
  have htake := DecUnit.takeCode_first (W := t.param) (d := t.dec.init) rfl a.isLt
    ((freshTable_learned t.param).literals a)
  have hspace : a.toNat < t.param.ncodes := lt_ncodes_of_lt_512 t.param (a.isLt.trans (by decide))
  exact ⟨_, (runInstrs_cons (exec_decInit_next t)).trans
    (runInstrs_decCodes_singleton (s := { t with dec := t.dec.init }) rfl hspace htake), rfl, rfl, rfl, rfl⟩

/-- Settles O53: the encoder emits the two codewords, and the decoder, with only the first, meets 257 as SELF. -/
theorem tripleStartIsSelfReferential : Obligations.TripleStartIsSelfReferential := by
  unfold Obligations.TripleStartIsSelfReferential
  intro s t a text hrun
  obtain ⟨e, ws, hrun', hout⟩ := runInstrs_encStream_triple s a text
  obtain rfl := Host.Outcome.next.inj (hrun.symm.trans hrun')
  obtain ⟨d, hdec, hact, hcur, htable, hcounter⟩ := runInstrs_decCodes_literal { s with enc := e } a
  have hspace : 257 < s.param.ncodes := lt_ncodes_of_lt_512 s.param (by decide)
  obtain ⟨v, hself, hv, hlearned, -⟩ := decCodeSelfCodeword { s with enc := e, dec := d } 257#12 [] a hact hcur
    (htable ▸ freshTable_wf) (by decide) hspace hcounter.symm
  exact ⟨ws, _, v, hout, hdec, hcounter, hself, by rw [hv]; rfl, hcounter ▸ hlearned⟩

end Sys2Proof.Machine
end

section
/-! Exceptions (60_exceptions.md). The error action as one record (R105); what the dispatch ladder does with a command
outside ACTIVE and with an illegal word (R96, R97, R104); a unit in ERROR, which acts on INIT only (R107, R108); the
errors of DEC_CODE and DEC_EOS in ACTIVE (R98 to R101); INIT in ACTIVE (R102). -/

namespace Sys2Proof.Machine

/-! ## The error action -/

/-- The error action's shared part, as one record (60_exceptions.md R105). -/
theorem UnitCore.raiseError_eq (p : UnitCore) (code : Status) :
    p.raiseError code = { state := .error, err := code,
                          out := p.out ++ (if p.state = .active then [closeWord code] else []) } := by
  rw [← UnitCore.raiseError_out]
  rfl

/-- Settles O7: the shared part as one record, and the one field each unit clears. -/
theorem errorAction : Obligations.ErrorAction := by
  unfold Obligations.ErrorAction
  intro s code
  simp only [State.streamError, EncUnit.streamError, DecUnit.streamError, UnitCore.raiseError_eq, and_self]

/-- With no stream open the error action emits nothing (60_exceptions.md R97, R105). -/
theorem UnitCore.raiseError_out_of_closed {p : UnitCore} (hclosed : p.state ≠ .active) (code : Status) :
    (p.raiseError code).out = p.out := by
  rw [UnitCore.raiseError_out, if_neg hclosed, List.append_nil]

/-! ## Commands other than INIT outside ACTIVE -/

theorem EncUnit.dispatch_error {f : EncUnit → Except Fault EncUnit} {e : EncUnit} (h : e.state = .error) :
    e.dispatch f = .ok e := by simp [EncUnit.dispatch, h]

theorem EncUnit.dispatch_closed {f : EncUnit → Except Fault EncUnit} {e : EncUnit}
    (h : e.state = .idle ∨ e.state = .done) : e.dispatch f = .ok (e.streamError .sequence) := by
  rcases h with h | h <;> simp [EncUnit.dispatch, h]

theorem DecUnit.dispatch_ignored {f : DecUnit → Except Fault DecUnit} {d : DecUnit}
    (h : d.state = .error ∨ d.state = .done) : d.dispatch f = .ok d := by
  rcases h with h | h <;> simp [DecUnit.dispatch, h]

theorem DecUnit.dispatch_idle {f : DecUnit → Except Fault DecUnit} {d : DecUnit} (h : d.state = .idle) :
    d.dispatch f = .ok (d.streamError .sequence) := by simp [DecUnit.dispatch, h]

/-- A command of the encoder other than INIT goes through the dispatch ladder (60_exceptions.md R104). -/
theorem exec_eq_encDispatch {i : Instr} (hunit : i.unit = .enc) (hinit : i.isInit = false) :
    ∃ f : Width → EncUnit → Except Fault EncUnit, ∀ s, exec i s = s.onEnc fun W e => e.dispatch (f W) := by
  cases i with
  | encSym sym => exact ⟨_, exec_encSym sym⟩
  | encEnd => exact ⟨_, exec_encEnd⟩
  | encInit => cases hinit
  | decInit | decCode | decEos => cases hunit

/-- A command of the decoder other than INIT goes through the dispatch ladder (60_exceptions.md R104). -/
theorem exec_eq_decDispatch {i : Instr} (hunit : i.unit = .dec) (hinit : i.isInit = false) :
    ∃ f : Width → DecUnit → Except Fault DecUnit, ∀ s, exec i s = s.onDec fun W d => d.dispatch (f W) := by
  cases i with
  | decCode code => exact ⟨_, exec_decCode code⟩
  | decEos => exact ⟨_, exec_decEos⟩
  | decInit => cases hinit
  | encInit | encSym | encEnd => cases hunit

/-- The decoder ignores a command other than INIT in ERROR and in DONE (60_exceptions.md R104 steps 1 and 5). -/
theorem exec_dec_ignored {i : Instr} {s : State} (hunit : i.unit = .dec) (hinit : i.isInit = false)
    (h : s.dec.state = .error ∨ s.dec.state = .done) : exec i s = .next s := by
  obtain ⟨f, hf⟩ := exec_eq_decDispatch hunit hinit
  rw [hf]
  exact State.onDec_ok (DecUnit.dispatch_ignored h)

/-- A unit in ERROR ignores a command other than INIT (60_exceptions.md R104 step 1). -/
theorem exec_of_error {i : Instr} {s : State} (hinit : i.isInit = false) (herr : (s.unitCore i.unit).state = .error) :
    exec i s = .next s := by
  cases hunit : i.unit with
  | enc =>
    rw [hunit] at herr
    obtain ⟨f, hf⟩ := exec_eq_encDispatch hunit hinit
    rw [hf]
    exact State.onEnc_ok (EncUnit.dispatch_error herr)
  | dec =>
    rw [hunit] at herr
    exact exec_dec_ignored hunit hinit (.inl herr)

/-- Settles O11: DONE is one of the two states in which the decoder ignores its commands. -/
theorem decoderIgnoresCommandsWhenDone : Obligations.DecoderIgnoresCommandsWhenDone := by
  unfold Obligations.DecoderIgnoresCommandsWhenDone
  exact fun _ _ hunit hinit hdone => exec_dec_ignored hunit hinit (.inr hdone)

/-- A command other than INIT with no stream begun, or on the encoder with its stream done, is out of sequence
(60_exceptions.md R104 steps 4 and 5). -/
theorem exec_out_of_sequence {i : Instr} {s : State} (hinit : i.isInit = false)
    (h : (s.unitCore i.unit).state = .idle ∨ (i.unit = .enc ∧ s.enc.state = .done)) :
    exec i s = .next (s.streamError i.unit .sequence) := by
  cases hunit : i.unit with
  | enc =>
    rw [hunit] at h
    obtain ⟨f, hf⟩ := exec_eq_encDispatch hunit hinit
    rw [hf]
    exact State.onEnc_ok (EncUnit.dispatch_closed (h.imp_right And.right))
  | dec =>
    rw [hunit] at h
    have hidle : s.dec.state = .idle := h.resolve_right (by simp)
    obtain ⟨f, hf⟩ := exec_eq_decDispatch hunit hinit
    rw [hf]
    exact State.onDec_ok (DecUnit.dispatch_idle hidle)

/-- Settles O10: the command is out of sequence, and with no stream open no CLOSE word is emitted. -/
theorem sequenceErrors : Obligations.SequenceErrors := by
  unfold Obligations.SequenceErrors
  intro i s hinit h
  have hclosed : (s.unitCore i.unit).state ≠ .active := by
    rcases h with hidle | ⟨hunit, hdone⟩
    · simp [hidle]
    · simp [hunit, hdone]
  refine ⟨_, exec_out_of_sequence hinit h, rfl, ?_⟩
  rw [State.streamError_unitCore]
  exact ⟨rfl, rfl, UnitCore.raiseError_out_of_closed hclosed _⟩

/-! ## Words and steps -/

/-- A word that decodes runs as its command (60_exceptions.md R104). -/
theorem runWord_of_decode_ok {u : UnitId} {cmd : CmdWord} {i : Instr} (h : decode u cmd = .ok i) (s : State) :
    runWord u cmd s = exec i s := by
  simp only [runWord, h]

/-- Settles O3: the step is the word on its unit, which runs as the command. -/
theorem stepRunsDecodedCommand : Obligations.StepRunsDecodedCommand := by
  unfold Obligations.StepRunsDecodedCommand
  intro s u cmd rest i hhost hdec
  rw [step_eq_act hhost]
  exact runWord_of_decode_ok hdec _

/-- Settles O4: a step acts on the oldest host action, and there is none. -/
theorem stepWithoutActionKeepsState : Obligations.StepWithoutActionKeepsState := by
  unfold Obligations.StepWithoutActionKeepsState
  intro s hhost
  simp only [step, stepHost, hhost]

/-- A word that is not legal on its unit runs as an illegal word (30_encoding.md R68, 60_exceptions.md R104). -/
theorem runWord_of_illegal {u : UnitId} {cmd : CmdWord} (h : legal u cmd = false) (s : State) :
    runWord u cmd s = .next (s.illegalWord u) := by
  rcases runWord_cases u cmd s with ⟨i, hdec, -⟩ | ⟨-, -, hrun⟩
  · rw [(legal_iff_decodes u cmd).2 ⟨i, hdec⟩] at h
    cases h
  · exact hrun

/-- A unit in ERROR ignores an illegal word (60_exceptions.md R104 step 1). -/
theorem State.illegalWord_of_error {s : State} {u : UnitId} (h : (s.unitCore u).state = .error) :
    s.illegalWord u = s := by
  cases u with
  | enc =>
    rw [State.unitCore_enc] at h
    rw [State.illegalWord, EncUnit.illegalWord, if_pos h]
  | dec =>
    rw [State.unitCore_dec] at h
    rw [State.illegalWord, DecUnit.illegalWord, if_pos h]

/-- Outside ERROR an illegal word raises ILLEGAL_CMD (60_exceptions.md R104 step 2). -/
theorem State.illegalWord_of_ne_error {s : State} {u : UnitId} (h : (s.unitCore u).state ≠ .error) :
    s.illegalWord u = s.streamError u .illegalCmd := by
  cases u with
  | enc =>
    rw [State.unitCore_enc] at h
    rw [State.illegalWord, EncUnit.illegalWord, if_neg h, State.streamError]
  | dec =>
    rw [State.unitCore_dec] at h
    rw [State.illegalWord, DecUnit.illegalWord, if_neg h, State.streamError]

/-- Settles O6: an illegal word tests for ERROR only. -/
theorem illegalWordRaisesIllegalCmd : Obligations.IllegalWordRaisesIllegalCmd := by
  unfold Obligations.IllegalWordRaisesIllegalCmd
  intro s u cmd rest hhost hillegal
  have hstep : step s = .next ({ s with host := rest }.illegalWord u) :=
    (step_eq_act hhost).trans (runWord_of_illegal hillegal _)
  rw [hstep]
  exact ⟨fun h => congrArg _ (State.illegalWord_of_ne_error (s := { s with host := rest }) h),
    fun h => congrArg _ (State.illegalWord_of_error (s := { s with host := rest }) h)⟩

/-! ## ERROR -/

/-- A unit in ERROR ignores every word but that of INIT (60_exceptions.md R107). -/
theorem runWord_of_error {u : UnitId} {cmd : CmdWord} {s : State} (herr : (s.unitCore u).state = .error)
    (hcmd : cmd ≠ 0x1000#16) : runWord u cmd s = .next s := by
  rcases runWord_cases u cmd s with ⟨i, hdec, hrun⟩ | ⟨_, -, hrun⟩ <;> rw [hrun]
  · obtain rfl := decode_ok_unit hdec
    obtain rfl := encode_of_decode_ok hdec
    have hinit : i.isInit = false := by simpa [encode_eq_initWord_iff] using hcmd
    exact exec_of_error hinit herr
  · rw [State.illegalWord_of_error herr]

theorem runWord_enc_initWord (s : State) : runWord .enc 0x1000#16 s = .next { s with enc := s.enc.init } :=
  (runWord_encode .encInit s).trans (exec_encInit_next s)

theorem runWord_dec_initWord (s : State) : runWord .dec 0x1000#16 s = .next { s with dec := s.dec.init } :=
  (runWord_encode .decInit s).trans (exec_decInit_next s)

/-- INIT's word opens a stream on its unit in every state (60_exceptions.md R104 steps 1 and 3). -/
theorem runWord_initWord (u : UnitId) (s : State) :
    ∃ t, runWord u 0x1000#16 s = .next t ∧ t.unitCore u = (s.unitCore u).openStream := by
  cases u with
  | enc => exact ⟨_, runWord_enc_initWord s, rfl⟩
  | dec => exact ⟨_, runWord_dec_initWord s, rfl⟩

/-- Settles O8: INIT's word opens a stream, and every other word is ignored. -/
theorem errorStateIgnoresAllButInit : Obligations.ErrorStateIgnoresAllButInit := by
  unfold Obligations.ErrorStateIgnoresAllButInit
  intro s u cmd rest hhost herr
  rw [step_eq_act hhost]
  refine ⟨runWord_of_error (s := { s with host := rest }) herr, ?_⟩
  rintro rfl
  obtain ⟨t, hrun, hopen⟩ := runWord_initWord u { s with host := rest }
  exact ⟨t, hrun, by rw [hopen]; rfl, by rw [hopen]; rfl⟩

/-- A word on one unit leaves the other unit as it is (20_memory.md R56). -/
theorem unitCore_of_runWord_other {u v : UnitId} {cmd : CmdWord} {s t : State} (hne : u ≠ v)
    (h : runWord u cmd s = .next t) : t.unitCore v = s.unitCore v := by
  cases u with
  | enc =>
    cases v with
    | enc => exact absurd rfl hne
    | dec =>
      obtain ⟨f, hf⟩ := runWord_eq_onEnc cmd
      rw [hf] at h
      obtain ⟨_, -, rfl⟩ := State.onEnc_next.1 h
      rfl
  | dec =>
    cases v with
    | enc =>
      obtain ⟨g, hg⟩ := runWord_eq_onDec cmd
      rw [hg] at h
      obtain ⟨_, -, rfl⟩ := State.onDec_next.1 h
      rfl
    | dec => exact absurd rfl hne

/-- Only INIT's word leads a unit out of ERROR (60_exceptions.md R107). -/
theorem eq_initWord_of_leaves_error {u v : UnitId} {cmd : CmdWord} {s t : State} (h : runWord v cmd s = .next t)
    (herr : (s.unitCore u).state = .error) (hleft : (t.unitCore u).state ≠ .error) : v = u ∧ cmd = 0x1000#16 := by
  obtain rfl : v = u := by
    by_contra hne
    rw [unitCore_of_runWord_other hne h] at hleft
    exact hleft herr
  refine ⟨rfl, ?_⟩
  by_contra hcmd
  rw [runWord_of_error herr hcmd] at h
  cases h
  exact hleft herr

/-- Taking a word changes no unit's state (20_memory.md R55). -/
@[simp] theorem State.takeWord_unitState (s : State) (u v : UnitId) :
    ((s.takeWord u).unitCore v).state = (s.unitCore v).state := by
  cases u <;> cases v <;> rfl

/-- Settles O9: of what a step can be, only INIT's word and hardware reset lead the unit out of ERROR. -/
theorem onlyInitOrResetLeavesError : Obligations.OnlyInitOrResetLeavesError := by
  unfold Obligations.OnlyInitOrResetLeavesError
  intro s t u hstep herr hleft
  rcases step_cases s with ⟨-, hs⟩ | ⟨v, cmd, rest, hhost, hs⟩ | ⟨v, rest, -, hs⟩ | ⟨rest, hhost, -⟩
  · cases hs.symm.trans hstep
    exact absurd herr hleft
  · have hrun := hs.symm.trans hstep
    obtain ⟨rfl, rfl⟩ := eq_initWord_of_leaves_error hrun herr hleft
    refine ⟨rest, .inr ⟨hhost, ?_⟩⟩
    cases v with
    | enc =>
      cases (runWord_enc_initWord _).symm.trans hrun
      exact ⟨rfl, rfl, fun _ => ⟨rfl, rfl, rfl⟩, nofun⟩
    | dec =>
      cases (runWord_dec_initWord _).symm.trans hrun
      exact ⟨rfl, rfl, nofun, fun _ => ⟨rfl, rfl, rfl⟩⟩
  · cases hs.symm.trans hstep
    rw [State.takeWord_unitState] at hleft
    exact absurd herr hleft
  · exact ⟨rest, .inl hhost⟩

/-! ## Errors of the decoder in ACTIVE -/

/-- DEC_CODE of a value past the code space (60_exceptions.md R98). -/
theorem DecUnit.takeCode_range {W : Width} {c : Nat} (d : DecUnit) (hsentinel : c ≠ 256) (hspace : W.ncodes ≤ c) :
    d.takeCode c W = .ok (d.streamError .corruptRange) := by
  rw [DecUnit.takeCode, if_neg hsentinel, if_pos hspace]

/-- DEC_CODE of a first codeword that is no literal (60_exceptions.md R99). -/
theorem DecUnit.takeCode_firstLearned {W : Width} {d : DecUnit} {c : Nat} (hcur : d.current = none)
    (hspace : c < W.ncodes) (hlearned : 257 ≤ c) : d.takeCode c W = .ok (d.streamError .corruptFirst) := by
  rw [DecUnit.takeCode, if_neg (Nat.ne_of_gt hlearned), if_neg (Nat.not_le.2 hspace), hcur]
  exact if_pos hlearned

/-- DEC_CODE of a later codeword above the counter (60_exceptions.md R101). -/
theorem DecUnit.takeCode_high {W : Width} {d : DecUnit} {c : Nat} {cur : SymSeq} (hcur : d.current = some cur)
    (hsentinel : c ≠ 256) (hspace : c < W.ncodes) (hhigh : d.highestCode < c) :
    d.takeCode c W = .ok (d.streamError .corruptHigh) := by
  have hclass : dynClass d.highestCode c = .corrupt := by
    rw [dynClass, if_neg hhigh.le.not_gt, if_neg hhigh.ne']
  simp only [DecUnit.takeCode, if_neg hsentinel, if_neg (Nat.not_le.2 hspace), hcur, DecUnit.laterCode, hclass]

/-- Settles O30: in ACTIVE DEC_CODE is its effect, test by test; a 12-bit codeword is in the code space of W = 12. -/
theorem corruptCodewordsRaise : Obligations.CorruptCodewordsRaise := by
  unfold Obligations.CorruptCodewordsRaise
  intro s code hact hsentinel
  refine ⟨fun hspace => ?_, fun hW => ?_, fun hspace hcur hlearned => ?_, fun cur hspace hcur hhigh => ?_⟩
  · exact exec_decCode_active hact (DecUnit.takeCode_range s.dec hsentinel hspace)
  · rw [hW]
    exact code.isLt
  · exact exec_decCode_active hact (DecUnit.takeCode_firstLearned hcur hspace hlearned)
  · exact exec_decCode_active hact (DecUnit.takeCode_high hcur hsentinel hspace hhigh)

/-- Settles O31: in ACTIVE DEC_EOS is the error action with a stream open; 0xF005 is its CLOSE word. -/
theorem decEosInActiveIsTruncation : Obligations.DecEosInActiveIsTruncation := by
  unfold Obligations.DecEosInActiveIsTruncation
  intro s hact
  have hexec : exec .decEos s = .next { s with dec := s.dec.streamError .corruptTruncated } := by
    rw [exec_decEos]
    exact State.onDec_ok (DecUnit.dispatch_active hact)
  rw [hexec, DecUnit.streamError, UnitCore.raiseError_eq, if_pos hact]
  rfl

/-! ## INIT in ACTIVE -/

/-- INIT with a stream open closes it with ABORTED, whose CLOSE word is 0xF007 (60_exceptions.md R102). -/
theorem UnitCore.openStream_out_of_active {p : UnitCore} (hact : p.state = .active) :
    p.openStream.out = p.out ++ [0xF007#16] := by
  rw [UnitCore.openStream_out, if_pos hact]
  rfl

/-- Settles O17: INIT opens a stream in every state, and closes the one that is open. -/
theorem initInActiveAborts : Obligations.InitInActiveAborts := by
  unfold Obligations.InitInActiveAborts
  exact fun s => ⟨fun hact => ⟨_, exec_encInit_next s, UnitCore.openStream_out_of_active hact, rfl, rfl⟩,
    fun hact => ⟨_, exec_decInit_next s, UnitCore.openStream_out_of_active hact, rfl, rfl⟩⟩

end Sys2Proof.Machine
end

section
/-! Hardware reset, which clears both units at any moment (70_reset_and_hazards.md R120), and how many words a command
emits (R124). A DEC_CODE that leaves the stream open emits the sequence it makes current, which a good record bounds
by MAX_SEQ; one that closes the stream emits its CLOSE word alone. -/

namespace Sys2Proof.Machine

/-! ## Hardware reset -/

/-- The STATUS of a unit just reset: a counter of 0 is not `2^W` for any width (10_state.md R30, R38). -/
theorem statusWord_reset (W : Width) : statusWord W 0 .ok false .idle = 0x00000000#32 := by
  cases W <;> decide

/-- Settles O2: the step is the reset of both units' records, and PARAM reads the width alone. -/
theorem hardwareResetClearsBothUnits : Obligations.HardwareResetClearsBothUnits := by
  unfold Obligations.HardwareResetClearsBothUnits
  intro s rest hhost
  exact ⟨_, step_eq_act hhost, rfl, rfl, rfl, rfl, rfl, rfl, rfl, rfl, rfl, rfl, rfl, rfl,
    statusWord_reset s.param, statusWord_reset s.param, rfl⟩

/-! ## Commands that emit a bounded number of words in every state -/

/-- INIT emits at most the CLOSE word of an abandoned stream (60_exceptions.md R102). -/
theorem exec_init_out_length_le {i : Instr} {s t : State} (hinit : i.isInit = true) (h : exec i s = .next t) :
    (t.unitCore i.unit).out.length ≤ (s.unitCore i.unit).out.length + 1 := by
  rw [unitCore_of_exec_init hinit h, UnitCore.openStream_out, List.length_append]
  split_ifs <;> simp

/-- With no stream open on its unit a command other than INIT emits nothing (60_exceptions.md R97, R104). -/
theorem exec_out_of_closed {i : Instr} {s t : State} (hinit : i.isInit = false)
    (hclosed : (s.unitCore i.unit).state ≠ .active) (h : exec i s = .next t) :
    (t.unitCore i.unit).out = (s.unitCore i.unit).out := by
  cases StreamEffect.exec_of_not_init hinit h with
  | closed _ hout => exact hout
  | goesOn _ _ hact => exact absurd hact hclosed
  | ends _ _ _ hact => exact absurd hact hclosed

/-- A bound on the words a command other than INIT emits with a stream open on its unit is one in every state. -/
theorem exec_out_length_le_of_active {i : Instr} {s t : State} {n : Nat} (hinit : i.isInit = false)
    (h : exec i s = .next t) (hactive : (s.unitCore i.unit).state = .active →
      (t.unitCore i.unit).out.length ≤ (s.unitCore i.unit).out.length + n) :
    (t.unitCore i.unit).out.length ≤ (s.unitCore i.unit).out.length + n := by
  by_cases hact : (s.unitCore i.unit).state = .active
  · exact hactive hact
  · rw [exec_out_of_closed hinit hact h]
    exact Nat.le_add_right _ n

/-- ENC_SYM emits at most the pending match (40_encoder.md R81). -/
theorem exec_encSym_out_length_le {s t : State} {sym : Symbol} (h : exec (.encSym sym) s = .next t) :
    t.enc.out.length ≤ s.enc.out.length + 1 := by
  refine exec_out_length_le_of_active (i := .encSym sym) rfl h fun hact => ?_
  rw [exec_encSym] at h
  obtain ⟨e, he, rfl⟩ := State.onEnc_next.1 h
  obtain ⟨-, -, hout⟩ := EncUnit.takeSymbol_core ((EncUnit.dispatch_active hact).symm.trans he)
  show e.out.length ≤ s.enc.out.length + 1
  rcases hout with heq | ⟨w, -, heq⟩ <;> simp [heq]

/-- ENC_END emits at most the pending match, the sentinel and the CLOSE word (40_encoder.md R82). -/
theorem exec_encEnd_out_length_le {s t : State} (h : exec .encEnd s = .next t) :
    t.enc.out.length ≤ s.enc.out.length + 3 := by
  refine exec_out_length_le_of_active (i := .encEnd) rfl h fun hact => ?_
  cases (exec_encEnd_active hact).symm.trans h
  have hpending : s.enc.w.toList.length ≤ 1 := by cases s.enc.w <;> simp
  show s.enc.finish.out.length ≤ s.enc.out.length + 3
  simp only [EncUnit.finish_eq, List.length_append, List.length_map, List.length_cons, List.length_nil]
  omega

/-- DEC_EOS emits at most the CLOSE word of a truncated stream (60_exceptions.md R100). -/
theorem exec_decEos_out_length_le {s t : State} (h : exec .decEos s = .next t) :
    t.dec.out.length ≤ s.dec.out.length + 1 := by
  refine exec_out_length_le_of_active (i := .decEos) rfl h fun hact => ?_
  cases (decEosInActiveIsTruncation s hact).symm.trans h
  exact List.length_append.le

/-! ## DEC_CODE -/

/-- The sequence made current last has at most MAX_SEQ symbols: it is an entry below the counter (20_memory.md R45,
R47; 10_state.md R26). -/
theorem DecUnit.Inv.current_length_le {W : Width} {d : DecUnit} (h : d.Inv W) {q : SymSeq} (hcur : d.current = some q) :
    q.length ≤ W.maxSeq := by
  have hgood := h.opened (.inl (h.pendActive (by simp [hcur])))
  obtain ⟨p, hp, hread⟩ := hgood.current q hcur
  obtain ⟨-, hlen⟩ := hgood.learned.length_bounds hread hp
  have hbound := h.bound
  rw [W.maxSeq_eq]
  omega

/-- A DEC_CODE that closes the open stream emits its CLOSE word alone (41_decoder.md R89, R93). -/
theorem DecUnit.takeCode_closes {W : Width} {d d' : DecUnit} {c : Nat} (hact : d.state = .active)
    (h : d.takeCode c W = .ok d') (hclosed : d'.state ≠ .active) : ∃ st, d'.out = d.out ++ [closeWord st] := by
  rcases DecUnit.takeCode_ok h with ⟨-, rfl⟩ | ⟨-, -, rfl⟩ | ⟨-, -, -, -, rfl⟩ | ⟨-, -, _, -, rfl⟩ |
    ⟨_, _, _, _, -, -, -, -, -, ⟨-, rfl⟩ | ⟨-, rfl⟩⟩ | ⟨_, -, -, -, -, rfl⟩
  · exact ⟨_, rfl⟩
  · exact ⟨_, DecUnit.streamError_out_of_active hact _⟩
  · exact ⟨_, DecUnit.streamError_out_of_active hact _⟩
  · exact absurd hact hclosed
  · exact absurd hact hclosed
  · exact absurd hact hclosed
  · exact ⟨_, DecUnit.streamError_out_of_active hact _⟩

/-- From a good state DEC_CODE emits at most MAX_SEQ symbols or one CLOSE word, never both (41_decoder.md R89 (h);
70_reset_and_hazards.md R124). -/
theorem exec_decCode_emits {s t : State} {code : BitVec 12} (hs : s.Inv) (h : exec (.decCode code) s = .next t) :
    ∃ ws, t.dec.out = s.dec.out ++ ws ∧
      ((ws.length ≤ s.param.maxSeq ∧ ∀ o ∈ ws, ∃ x, o = symWord x) ∨ ∃ st, ws = [closeWord st]) := by
  by_cases hact : s.dec.state = .active
  · by_cases hopen : t.dec.state = .active
    · obtain ⟨q, hcur, hout⟩ := (exec_decCode_decodes h hopen).emitted
      have hlen := (hs.exec h).dec.current_length_le hcur
      rw [exec_param h] at hlen
      exact ⟨_, hout, .inl ⟨by rwa [List.length_map], List.forall_mem_map.2 fun x _ => ⟨x, rfl⟩⟩⟩
    · obtain ⟨d, htake, rfl⟩ := exec_decCode_of_active hact h
      obtain ⟨st, hout⟩ := DecUnit.takeCode_closes hact htake hopen
      exact ⟨_, hout, .inr ⟨st, rfl⟩⟩
  · have hout : t.dec.out = s.dec.out := exec_out_of_closed (i := .decCode code) rfl hact h
    exact ⟨[], by rw [hout, List.append_nil], .inl ⟨Nat.zero_le _, nofun⟩⟩

/-! ## Every command -/

/-- Settles O39: a command only appends to its unit's queue, and what it appends is bounded command by command. -/
theorem emissionBounds : Obligations.EmissionBounds := by
  unfold Obligations.EmissionBounds
  intro s t i hs h
  obtain ⟨ws, hws⟩ := exec_out_prefix h
  have hcount {n : Nat} (hle : (t.unitCore i.unit).out.length ≤ (s.unitCore i.unit).out.length + n) :
      ws.length ≤ n := by
    rwa [← hws, List.length_append, Nat.add_le_add_iff_left] at hle
  refine ⟨ws, hws.symm, fun hinit => hcount (exec_init_out_length_le hinit h), ?_, ?_, ?_, ?_⟩
  · rintro sym rfl
    exact hcount (exec_encSym_out_length_le h)
  · rintro rfl
    exact hcount (exec_encEnd_out_length_le h)
  · rintro rfl
    exact hcount (exec_decEos_out_length_le h)
  · rintro code rfl
    obtain ⟨vs, hvs, hwords⟩ := exec_decCode_emits hs h
    rwa [List.append_cancel_left (hws.trans hvs)]

end Sys2Proof.Machine
end
